-- ==== Sys2Proof/Word.lean ====
section
/-! DEFINITION. The word types: a command word, a register byte, a register address. -/

namespace Sys2Proof

/-- A device register, a codec operand, a byte of a frame (00_scope.md R5). -/
abbrev Byte := BitVec 8

/-- A command word `cmd[31:0]` (30_encoding.md R80). -/
abbrev Word := BitVec 32

/-- A register address or a slave identity: 7 bits (00_scope.md R6, R10). -/
abbrev Addr := BitVec 7

end Sys2Proof
end

