-- ==== Sys2Proof/Syntax.lean ====
section
/-! DEFINITION. The fourteen commands (30_encoding.md R81), one constructor per row of opcode_table.json, and the two
pseudo-operations that expand to one command (R113). Operands are the fields of the command word, of the widths of R82
to R85; the response list of DRSP is not part of the command word (R85) and stands on the response port. -/

namespace Sys2Proof

/-- The two transports a framing command can serve (10_state.md R24): `F` (t = 0) and `A` (t = 1). -/
inductive Bus
  | framed
  | addressed
  deriving DecidableEq, Repr

/-- A command of the block. -/
inductive Instr
  | mask (width shift : BitVec 4)
  | enc (width shift : BitVec 4) (value : Byte)
  | ins (width shift : BitVec 4) (value byte : Byte)
  | ext (width shift : BitVec 4) (byte : Byte)
  | fdec (ftype : BitVec 4) (byte : Byte)
  | fins (ftype : BitVec 4) (code byte : Byte)
  | frsF (addr : Addr)
  | frbF (addr : Addr) (n : Byte)
  | fwrF (addr : Addr) (value : Byte)
  | drspF
  | frsA (addr : Addr)
  | frbA (addr : Addr) (n : Byte)
  | fwrA (addr : Addr) (value : Byte)
  | drspA
  deriving DecidableEq, Repr

/-- `BIT k, b` is `EXT 1, k, b` (30_encoding.md R113). -/
abbrev Instr.bit (k : BitVec 4) (b : Byte) : Instr := .ext 1 k b

/-- `CLRF w, s, cur` is `INS w, s, 0, cur` (30_encoding.md R113). -/
abbrev Instr.clrf (w s : BitVec 4) (cur : Byte) : Instr := .ins w s 0 cur

/-- `FRS.t a` (30_encoding.md R81, R111). -/
abbrev Instr.frs : Bus → Addr → Instr
  | .framed, a => .frsF a
  | .addressed, a => .frsA a

/-- `FRB.t a, n`. -/
abbrev Instr.frb : Bus → Addr → Byte → Instr
  | .framed, a, n => .frbF a n
  | .addressed, a, n => .frbA a n

/-- `FWR.t a, v`. -/
abbrev Instr.fwr : Bus → Addr → Byte → Instr
  | .framed, a, v => .fwrF a v
  | .addressed, a, v => .fwrA a v

/-- `DRSP.t`. -/
abbrev Instr.drsp : Bus → Instr
  | .framed => .drspF
  | .addressed => .drspA

end Sys2Proof
end

