-- ==== Sys2Proof/Decode.lean ====
section
/-! DEFINITION. The command word (30_encoding.md R80 to R86, R100): the decoder, total on every word and rejecting by
name, and after it the encoder, written from the same format tables. -/

namespace Sys2Proof

/-- Why a word spells no command; both are `BadOp` at the result port (30_encoding.md R86). -/
inductive DecodeError
  /-- `op` is 0x0, 0x7 or 0xC to 0xF (R101). -/
  | reservedOp
  /-- A must-be-zero bit of the format is set (R86). -/
  | mustBeZero
  deriving DecidableEq, Repr

/-! ## Fields of the word (formats D, T, A, R: R82 to R85) -/

/-- `cmd[31:28]`. -/
def opField (w : Word) : BitVec 4 := w.extractLsb' 28 4
/-- `cmd[27:24]` of format D. -/
def widthField (w : Word) : BitVec 4 := w.extractLsb' 24 4
/-- `cmd[23:20]` of format D. -/
def shiftField (w : Word) : BitVec 4 := w.extractLsb' 20 4
/-- `cmd[27:24]` of format T. -/
def ftypeField (w : Word) : BitVec 4 := w.extractLsb' 24 4
/-- `cmd[15:8]`: `value` of formats D and A, `code` of format T. -/
def valueField (w : Word) : Byte := w.extractLsb' 8 8
/-- `cmd[7:0]` of formats D and T. -/
def byteField (w : Word) : Byte := w.extractLsb' 0 8
/-- `cmd[27]` of formats A and R. -/
def busField (w : Word) : BitVec 1 := w.extractLsb' 27 1
/-- `cmd[23:16]` of format A. -/
def lengthField (w : Word) : Byte := w.extractLsb' 16 8
/-- `cmd[6:0]` of format A. -/
def addrField (w : Word) : Addr := w.extractLsb' 0 7

/-- Bits `hi` down to `lo` of the word are 0. -/
def zeroBits (w : Word) (hi lo : Nat) : Bool := w.extractLsb' lo (hi + 1 - lo) == 0

/-- The transport that bit `t` selects (10_state.md R24). -/
def busOf (t : BitVec 1) : Bus := if t == 1 then .addressed else .framed

/-- A command whose must-be-zero bits have been checked (R86). -/
def checked (zeros : Bool) (i : Instr) : Except DecodeError Instr :=
  if zeros then .ok i else .error .mustBeZero

/-- The command a word spells, or why it spells none (R81 to R86, R101). -/
def decode (w : Word) : Except DecodeError Instr :=
  let op := (opField w).toNat
  if op = 0x1 then checked (zeroBits w 19 0) (.mask (widthField w) (shiftField w))
  else if op = 0x2 then
    checked (zeroBits w 19 16 && zeroBits w 7 0) (.enc (widthField w) (shiftField w) (valueField w))
  else if op = 0x3 then
    checked (zeroBits w 19 16) (.ins (widthField w) (shiftField w) (valueField w) (byteField w))
  else if op = 0x4 then checked (zeroBits w 19 8) (.ext (widthField w) (shiftField w) (byteField w))
  else if op = 0x5 then checked (zeroBits w 23 8) (.fdec (ftypeField w) (byteField w))
  else if op = 0x6 then checked (zeroBits w 23 16) (.fins (ftypeField w) (valueField w) (byteField w))
  else if op = 0x8 then checked (zeroBits w 26 7) (.frs (busOf (busField w)) (addrField w))
  else if op = 0x9 then
    checked (zeroBits w 26 24 && zeroBits w 15 7) (.frb (busOf (busField w)) (addrField w) (lengthField w))
  else if op = 0xA then
    checked (zeroBits w 26 16 && zeroBits w 7 7) (.fwr (busOf (busField w)) (addrField w) (valueField w))
  else if op = 0xB then checked (zeroBits w 26 0) (.drsp (busOf (busField w)))
  else .error .reservedOp

/-- The decoder on a table word: commands are one 32-bit word (R80), numbered as the table numbers it. -/
def decodeTableWord (_nbits w : Nat) : Option Instr :=
  match decode (BitVec.ofNat 32 w) with
  | .ok i => some i
  | .error _ => none

/-! ## The encoder -/

/-- Format D (R82). -/
def formatD (op width shift : BitVec 4) (value byte : Byte) : Word :=
  op ++ width ++ shift ++ 0#4 ++ value ++ byte

/-- Format T (R83). -/
def formatT (op ftype : BitVec 4) (code byte : Byte) : Word :=
  op ++ ftype ++ 0#8 ++ code ++ byte

/-- Format A (R84). -/
def formatA (op : BitVec 4) (t : BitVec 1) (n value : Byte) (addr : Addr) : Word :=
  op ++ t ++ 0#3 ++ n ++ value ++ 0#1 ++ addr

/-- Format R (R85). -/
def formatR (t : BitVec 1) : Word := 0xB#4 ++ t ++ 0#27

/-- The word of a command (R81 to R85). -/
def encode : Instr → Word
  | .mask w s => formatD 0x1 w s 0 0
  | .enc w s v => formatD 0x2 w s v 0
  | .ins w s v b => formatD 0x3 w s v b
  | .ext w s b => formatD 0x4 w s 0 b
  | .fdec f b => formatT 0x5 f 0 b
  | .fins f c b => formatT 0x6 f c b
  | .frsF a => formatA 0x8 0 0 0 a
  | .frbF a n => formatA 0x9 0 n 0 a
  | .fwrF a v => formatA 0xA 0 0 v a
  | .drspF => formatR 0
  | .frsA a => formatA 0x8 1 0 0 a
  | .frbA a n => formatA 0x9 1 n 0 a
  | .fwrA a v => formatA 0xA 1 0 v a
  | .drspA => formatR 1

/-! ## Assembler text (R111) -/

/-- The mnemonic of a command, as opcode_table.json spells it. -/
def Instr.mnemonic : Instr → String
  | .mask _ _ => "MASK"
  | .enc _ _ _ => "ENC"
  | .ins _ _ _ _ => "INS"
  | .ext _ _ _ => "EXT"
  | .fdec _ _ => "FDEC"
  | .fins _ _ _ => "FINS"
  | .frsF _ => "FRS.F"
  | .frbF _ _ => "FRB.F"
  | .fwrF _ _ => "FWR.F"
  | .drspF => "DRSP.F"
  | .frsA _ => "FRS.A"
  | .frbA _ _ => "FRB.A"
  | .fwrA _ _ => "FWR.A"
  | .drspA => "DRSP.A"

/-- A field type in assembler text: `RATE`, `BW`, `FS`; a reserved one by its number (95_test_vectors.md 2.7). -/
def ftypeText (f : BitVec 4) : String :=
  match f.toNat with
  | 0 => "RATE"
  | 1 => "BW"
  | 2 => "FS"
  | k => toString k

/-- The operands of a command in the order of R111, numbers in decimal; `resp` is the list presented with DRSP. -/
def Instr.operandTexts (resp : List Byte) : Instr → List String
  | .mask w s => [toString w.toNat, toString s.toNat]
  | .enc w s v => [toString w.toNat, toString s.toNat, toString v.toNat]
  | .ins w s v b => [toString w.toNat, toString s.toNat, toString v.toNat, toString b.toNat]
  | .ext w s b => [toString w.toNat, toString s.toNat, toString b.toNat]
  | .fdec f b => [ftypeText f, toString b.toNat]
  | .fins f c b => [ftypeText f, toString c.toNat, toString b.toNat]
  | .frsF a | .frsA a => [toString a.toNat]
  | .frbF a n | .frbA a n => [toString a.toNat, toString n.toNat]
  | .fwrF a v | .fwrA a v => [toString a.toNat, toString v.toNat]
  | .drspF | .drspA => ["[" ++ ", ".intercalate (resp.map fun b => toString b.toNat) ++ "]"]

/-- A command as text: the mnemonic, then the operands separated by commas (R111). -/
def Instr.text (resp : List Byte) (i : Instr) : String :=
  i.mnemonic ++ " " ++ ", ".intercalate (i.operandTexts resp)

end Sys2Proof
end

