-- ==== Sys2Proof/Config.lean ====
section
/-! DEFINITION. The configuration record: what 92_eei_decisions.md lists under "Open parameters a model takes as
configuration" and 93_implementation_defined.md Part B asks a model to hold as fields of one record. The tables, the
default values and the constraints on them are in Machine/Tables.lean. -/

namespace Sys2Proof

/-- The register names of the default register map (10_state.md R27). -/
inductive RegName
  | whoAmI | ctrlReg1 | ctrlReg2 | ctrlReg3 | ctrlReg4 | ctrlReg5 | reference | outTemp | statusReg
  | outXL | outXH | outYL | outYH | outZL | outZH | fifoCtrlReg | fifoSrcReg
  | int1Cfg | int1Src | int1TshXH | int1TshXL | int1TshYH | int1TshYL | int1TshZH | int1TshZL | int1Duration
  deriving DecidableEq, Repr

/-- A decode table of a two-bit field: each raw code maps to a canonical code or to no enumerator (10_state.md R29).
All three field types have width 2 (R25), so a table has four rows. -/
structure DecodeTable where
  raw0 : Option (BitVec 2)
  raw1 : Option (BitVec 2)
  raw2 : Option (BitVec 2)
  raw3 : Option (BitVec 2)
  deriving DecidableEq, Repr

/-- Bit numbers of the six status flags the source does not place (10_state.md R33, D20); `overrun` is bit 7 and
`x_new` bit 0 by the source. -/
structure StatusLayout where
  zOverrun : Fin 8
  yOverrun : Fin 8
  xOverrun : Fin 8
  newData : Fin 8
  zNew : Fin 8
  yNew : Fin 8
  deriving DecidableEq, Repr

/-- The configuration of a block, fixed for its life. -/
structure Config where
  /-- REGMAP, addresses rising (00_scope.md R7, 10_state.md R27). -/
  regmap : List (Addr × RegName)
  /-- SLAVE_ID_0, selected by strap 0 (00_scope.md R10). -/
  slaveId0 : Addr
  /-- SLAVE_ID_1, selected by strap 1 (00_scope.md R10). -/
  slaveId1 : Addr
  /-- RATE_DEC (10_state.md R30). -/
  rateDec : DecodeTable
  /-- BW_DEC (10_state.md R31). -/
  bwDec : DecodeTable
  /-- FS_REG, the register that holds the full-scale field (00_scope.md R11). -/
  fsReg : Addr
  /-- RW_READ, the value of header bit 7 in a framed-bus read (00_scope.md R8, D10). -/
  rwRead : BitVec 1
  /-- FILL, the byte sent after the header of a framed-bus read (00_scope.md R8, D11). -/
  fill : Byte
  /-- Places of status flags 6 to 1 (10_state.md R33, D20). -/
  statusBits : StatusLayout
  deriving DecidableEq, Repr

end Sys2Proof
end

