-- ==== Sys2Proof/Machine/Tables.lean ====
section
/-! DEFINITION. The constant tables of the block (10_state.md R25 to R32), the default configuration with the values the
spec supplies, and the constraints every configuration must satisfy (R27, R29, R33). -/

namespace Sys2Proof

/-! ## Decode tables -/

/-- The table's answer to a raw code: a canonical code zero-extended to 8 bits (30_encoding.md R99), or no enumerator
(10_state.md R29). A raw code of a two-bit field is below 4. -/
def DecodeTable.lookup (t : DecodeTable) (raw : Byte) : Option Byte :=
  match raw.toNat with
  | 0 => t.raw0.map (·.setWidth 8)
  | 1 => t.raw1.map (·.setWidth 8)
  | 2 => t.raw2.map (·.setWidth 8)
  | 3 => t.raw3.map (·.setWidth 8)
  | _ => none

/-- `X_CODES`, the image of the table: the canonical codes (10_state.md R29). -/
def DecodeTable.codes (t : DecodeTable) : List Byte :=
  [t.lookup 0, t.lookup 1, t.lookup 2, t.lookup 3].filterMap id

/-- A canonical code is the documented raw code of its enumerator (10_state.md R29), so the table maps it to itself.
DEDUCED: log 10. -/
def DecodeTable.wf (t : DecodeTable) : Bool :=
  t.codes.all fun c => t.lookup c == some c

/-- No raw code is unmapped. -/
def DecodeTable.total (t : DecodeTable) : Bool :=
  [t.raw0, t.raw1, t.raw2, t.raw3].all (·.isSome)

/-- Four enumerators with codes 0 to 3: the default of RATE_DEC and BW_DEC (10_state.md R30, R31). PRESUMED: log 3. -/
def DecodeTable.identity : DecodeTable := ⟨some 0, some 1, some 2, some 3⟩

/-- `FS_DEC`, fixed by the source: raw 2 is accepted for the enumerator of code 3 (10_state.md R32). -/
def fsDec : DecodeTable := ⟨some 0, some 1, some 3, some 3⟩

/-! ## Field types -/

/-- The typed quantities of FIELD_TABLE (10_state.md R25). -/
inductive FieldType
  | rate
  | bw
  | fs
  deriving DecidableEq, Repr

/-- Field types 3 to 15 are reserved (30_encoding.md R83, R102). -/
def FieldType.ofCode (f : BitVec 4) : Option FieldType :=
  match f.toNat with
  | 0 => some .rate
  | 1 => some .bw
  | 2 => some .fs
  | _ => none

/-- The number of a field type in the command word (10_state.md R25). -/
def FieldType.code : FieldType → BitVec 4
  | .rate => 0
  | .bw => 1
  | .fs => 2

/-- Column "width" of FIELD_TABLE (10_state.md R25). -/
def FieldType.width : FieldType → Nat
  | .rate => 2
  | .bw => 2
  | .fs => 2

/-- Column "shift" of FIELD_TABLE (10_state.md R25). -/
def FieldType.shift : FieldType → Nat
  | .rate => 6
  | .bw => 4
  | .fs => 4

/-- `X_DEC` of a field type (40_bitfield_codec.md R125). -/
def Config.decTable (cfg : Config) : FieldType → DecodeTable
  | .rate => cfg.rateDec
  | .bw => cfg.bwDec
  | .fs => fsDec

/-! ## Register map -/

/-- `a ∈ REGMAP`, for an address computed as a natural number: it never wraps (20_memory.md R64). -/
def Config.named (cfg : Config) (a : Nat) : Bool :=
  cfg.regmap.any fun row => row.1.toNat == a

/-- Every address of the burst `addr .. addr + n - 1` is in REGMAP (20_memory.md R64). -/
def Config.burstNamed (cfg : Config) (addr : Addr) (n : Nat) : Bool :=
  (List.range n).all fun i => cfg.named (addr.toNat + i)

/-- The address of a named register: the first row with the name, which is the lowest where a map with rising rows has the name twice.
DESIGN CHOICE for such a map: log 26. -/
def Config.addrOf (cfg : Config) (r : RegName) : Option Addr :=
  (cfg.regmap.find? fun row => row.2 == r).map (·.1)

/-- Column "host register" of FIELD_TABLE (10_state.md R25). -/
def Config.hostReg (cfg : Config) : FieldType → Option Addr
  | .rate => cfg.addrOf .ctrlReg1
  | .bw => cfg.addrOf .ctrlReg1
  | .fs => some cfg.fsReg

/-- ADDR_MIN (00_scope.md R6). -/
def addrMin : Nat := 0x0F

/-- ADDR_MAX (00_scope.md R6). -/
def addrMax : Nat := 0x38

/-- N_MAX, the largest burst length a command can carry (00_scope.md R12). -/
def nMax : Nat := 255

/-- CTRL1_INIT, the byte of the boot write (00_scope.md R12). -/
def ctrl1Init : Byte := 0b00001111#8

/-- TEMP_BIAS (00_scope.md R12). -/
def tempBias : Int := 25

/-! ## Constraints on a configuration -/

/-- What 10_state.md R27 asks of any register map: the range; one row for an address, rising; the registers the host
needs; the six axis registers consecutive in the order X low, X high, Y low, Y high, Z low, Z high; FS_REG a register
other than the first control register. DEDUCED: log 11. -/
def Config.mapWf (cfg : Config) : Bool :=
  cfg.regmap.all (fun row => addrMin ≤ row.1.toNat && row.1.toNat ≤ addrMax)
  && decide (cfg.regmap.Pairwise fun p q => p.1.toNat < q.1.toNat)
  && (cfg.addrOf .whoAmI).isSome && (cfg.addrOf .outTemp).isSome && (cfg.addrOf .statusReg).isSome
  && (match cfg.addrOf .ctrlReg1 with
      | some a => cfg.named cfg.fsReg.toNat && !(a == cfg.fsReg)
      | none => false)
  && (match cfg.addrOf .outXL with
      | some a =>
        ([RegName.outXH, .outYL, .outYH, .outZL, .outZH].zipIdx.all fun p =>
          (cfg.addrOf p.1).map (·.toNat) == some (a.toNat + p.2 + 1))
      | none => false)

/-- The status flags are packed one per bit (10_state.md R33): the six places are the bits 1 to 6, in some order. -/
def StatusLayout.wf (l : StatusLayout) : Bool :=
  let places := [l.zOverrun, l.yOverrun, l.xOverrun, l.newData, l.zNew, l.yNew]
  places.all (fun p => 1 ≤ p.val && p.val ≤ 6) && decide places.Nodup

/-- The constraints of the spec on a configuration. -/
def Config.wf (cfg : Config) : Bool :=
  cfg.mapWf && cfg.rateDec.wf && cfg.bwDec.wf && cfg.statusBits.wf

/-- Both configured decode tables map every raw code (as the defaults do; 40_bitfield_codec.md R125). -/
def Config.decTotal (cfg : Config) : Bool := cfg.rateDec.total && cfg.bwDec.total

/-! ## The default configuration -/

/-- The default REGMAP, row by row (10_state.md R27, D12). PRESUMED: log 3. -/
def defaultRegmap : List (Addr × RegName) :=
  [(0x0F#7, .whoAmI), (0x20#7, .ctrlReg1), (0x21#7, .ctrlReg2), (0x22#7, .ctrlReg3),
   (0x23#7, .ctrlReg4), (0x24#7, .ctrlReg5), (0x25#7, .reference), (0x26#7, .outTemp),
   (0x27#7, .statusReg), (0x28#7, .outXL), (0x29#7, .outXH), (0x2A#7, .outYL),
   (0x2B#7, .outYH), (0x2C#7, .outZL), (0x2D#7, .outZH), (0x2E#7, .fifoCtrlReg),
   (0x2F#7, .fifoSrcReg), (0x30#7, .int1Cfg), (0x31#7, .int1Src), (0x32#7, .int1TshXH),
   (0x33#7, .int1TshXL), (0x34#7, .int1TshYH), (0x35#7, .int1TshYL), (0x36#7, .int1TshZH),
   (0x37#7, .int1TshZL), (0x38#7, .int1Duration)]

/-- The default configuration: D10 to D15 and D20 of 92_eei_decisions.md. PRESUMED: log 3. -/
def Config.standard : Config where
  regmap := defaultRegmap
  slaveId0 := 0x6A
  slaveId1 := 0x6B
  rateDec := .identity
  bwDec := .identity
  fsReg := 0x23
  rwRead := 1
  fill := 0x00
  statusBits := ⟨6, 5, 4, 3, 2, 1⟩

/-- SLAVE_ID as the strap SA0 selects it: 0 selects SLAVE_ID_0, 1 selects SLAVE_ID_1 (10_state.md R23). -/
def Config.strapId (cfg : Config) (sa0 : Bool) : Addr :=
  if sa0 then cfg.slaveId1 else cfg.slaveId0

/-- The level of the strap that selects an identity, if one does (10_state.md R23). -/
def Config.strapFor (cfg : Config) (id : Addr) : Option Bool :=
  if id = cfg.slaveId0 then some false
  else if id = cfg.slaveId1 then some true
  else none

end Sys2Proof
end

