-- ==== Sys2Proof/Machine/Operands.lean ====
section
/-! DEFINITION. Operands: the well-formedness of a field descriptor, the four formulas of the codec
(30_encoding.md R97, 40_bitfield_codec.md R121 to R124), and the address-carrying bytes of the framer
(30_encoding.md R88, R90, R96). -/

namespace Sys2Proof.Machine

/-- `trunc8(x) = x mod 256` (00_scope.md R14). -/
def trunc8 (x : Nat) : Byte := BitVec.ofNat 8 x

/-- `wf(width, shift)` (40_bitfield_codec.md R120). -/
def wfDesc (width shift : Nat) : Bool :=
  1 ≤ width && width ≤ 8 && shift ≤ 7 && shift + width ≤ 8

/-- `mask_for_width = 2^width - 1`, the unshifted mask (00_scope.md R19). -/
def maskForWidth (width : Nat) : Byte := trunc8 (2 ^ width - 1)

/-- `mask = trunc8((2^width - 1) << shift)` (40_bitfield_codec.md R121). -/
def fieldMask (width shift : Nat) : Byte := trunc8 ((2 ^ width - 1) <<< shift)

/-- `encoded = trunc8(value << shift) & mask` (40_bitfield_codec.md R122). -/
def fieldEncoded (width shift : Nat) (value : Byte) : Byte :=
  trunc8 (value.toNat <<< shift) &&& fieldMask width shift

/-- `(current & !mask) | encoded` (40_bitfield_codec.md R123). -/
def fieldInserted (width shift : Nat) (value current : Byte) : Byte :=
  (current &&& ~~~fieldMask width shift) ||| fieldEncoded width shift value

/-- `(byte >> shift) & (2^width - 1)` (40_bitfield_codec.md R124). -/
def fieldExtracted (width shift : Nat) (byte : Byte) : Byte :=
  (byte >>> shift) &&& maskForWidth width

/-- MS_MULTI: a burst has header bit 6 set (00_scope.md R8). -/
def msMulti : BitVec 1 := 1

/-- A single access has header bit 6 clear (00_scope.md R8). -/
def msSingle : BitVec 1 := 0

/-- AUTOINC, the marker of an addressed-bus burst read (00_scope.md R9). -/
def autoInc : Byte := 0x80

/-- The header byte `(RW << 7) | (MS << 6) | addr` (30_encoding.md R88, R96). -/
def headerByte (rw ms : BitVec 1) (addr : Addr) : Byte :=
  (rw.setWidth 8 <<< 7) ||| (ms.setWidth 8 <<< 6) ||| addr.setWidth 8

/-- The read/write bit of a framed-bus write is the complement of RW_READ (D33; 95_test_vectors.md V7 writes it
`1 - RW_READ`). -/
def rwWrite (cfg : Config) : BitVec 1 := ~~~cfg.rwRead

/-- The bare sub-address byte, marker clear (30_encoding.md R90). -/
def subAddress (addr : Addr) : Byte := addr.setWidth 8

/-- The sub-address byte of a burst read, marker set (30_encoding.md R90). -/
def subAddressBurst (addr : Addr) : Byte := autoInc ||| addr.setWidth 8

end Sys2Proof.Machine
end

