-- ==== Sys2Proof/Machine/State.lean ====
section
/-! DEFINITION. The state of the machine, what a command can end in, and the state after reset. The list of every field
with its rule and reset value is INVENTORY.md, section State. -/

namespace Sys2Proof.Machine

/-- Why the model stops with a fault. There is no constructor: the spec's one fault, `InvalidCode`, leaves a halted
block that goes on answering `Halted` (60_exceptions.md R238, R244), so it is a next state (log 2), and nothing else in
the spec stops the block. Safe and unsafe do not arise. -/
inductive Fault
  deriving DecidableEq, Repr

/-- Why the model gives an instruction no meaning. -/
inductive Refusal
  /-- Raised by an arm of `exec` whose instruction has no meaning yet (none is left). Safe: the run stops. -/
  | notModelled (mnemonic : String)
  deriving DecidableEq, Repr

/-- The refusals of the block (60_exceptions.md R233 to R238). -/
inductive Reason
  | badOp
  | badDescriptor
  | valueRange
  | badAddress
  | badLength
  | halted
  deriving DecidableEq, Repr

/-- Which transport primitive performs an exchange (30_encoding.md R92). -/
inductive ExchangeKind
  | duplex
  | writeRead
  deriving DecidableEq, Repr

/-- The exchange descriptor `xd` (30_encoding.md R92). -/
structure Exchange where
  kind : ExchangeKind
  id : Option Addr
  tx : List Byte
  rxLen : Nat
  deriving DecidableEq, Repr

/-- What InvalidCode records: the field type and the raw code (60_exceptions.md R231). -/
structure InvalidCode where
  ftype : FieldType
  raw : Byte
  deriving DecidableEq, Repr

/-- The result of a command that ends ok: one part of the result port, by the command's family (30_encoding.md R87). -/
inductive Result
  | res (b : Byte)
  | xd (x : Exchange)
  | payload (l : List Byte)
  deriving DecidableEq, Repr

/-- The three ways a command ends (00_scope.md R18). -/
inductive CmdOutcome
  | ok (r : Result)
  | refuse (r : Reason)
  | raise (e : InvalidCode)
  deriving DecidableEq, Repr

/-- The result port (30_encoding.md R87): `status`, and the parts, each a value or nothing ("carry no information and
a model gives them no value"); `invalid` is the column "recorded" of 60_exceptions.md R239. -/
structure ResultPort where
  status : BitVec 4
  res : Option Byte
  xd : Option Exchange
  payload : Option (List Byte)
  invalid : Option InvalidCode
  deriving DecidableEq, Repr

/-- What the outside does to the block between steps: present a command word with a response list (30_encoding.md R80),
or assert reset with the strap SA0 at a level (70_reset_and_hazards.md R260, 10_state.md R23). -/
inductive Input
  | command (word : Word) (resp : List Byte)
  | reset (sa0 : Bool)
  deriving DecidableEq, Repr

/-- The state of the machine. -/
structure State where
  /-- The configuration, fixed for the life of the block (log 3). -/
  cfg : Config
  /-- SLAVE_ID, sampled from the strap at reset (10_state.md R23, R41). -/
  slaveId : Addr
  /-- The block's only state bit (10_state.md R22). -/
  halted : Bool
  /-- The response port: the list presented with the command being executed (30_encoding.md R80, R85). -/
  resp : List Byte
  /-- The result port (30_encoding.md R87). -/
  port : ResultPort
  /-- What the host is going to present, next first (10_state.md R21; the model's own field, log 7). -/
  inputs : List Input
  deriving DecidableEq, Repr

/-- The result port before any command. DESIGN CHOICE: log 5. -/
def ResultPort.idle : ResultPort where
  status := 0
  res := none
  xd := none
  payload := none
  invalid := none

/-- The machine right after reset (10_state.md R40 to R42): `halted = 0`, SLAVE_ID sampled from the strap (strap 0,
log 4), the constant tables as configured (log 3), nothing presented, nothing executed. -/
def State.reset : State where
  cfg := .standard
  slaveId := Config.standard.strapId false
  halted := false
  resp := []
  port := .idle
  inputs := []

end Sys2Proof.Machine
end

