-- ==== Sys2Proof/Machine/Flags.lean ====
section
/-! DEFINITION. The block has no condition codes and no command writes a flag (10_state.md R33, 40_bitfield_codec.md
R127). What the spec encodes as codes and flags is here: the status codes of the result port (60_exceptions.md R239)
the device's status byte (10_state.md R33, 43_host_sequences.md R210), and its first control register (10_state.md R34). -/

namespace Sys2Proof.Machine

/-- Status 0, ok (60_exceptions.md R239). -/
def statusOk : BitVec 4 := 0

/-- Status 8, InvalidCode (60_exceptions.md R239). -/
def statusInvalidCode : BitVec 4 := 8

/-- The status code of a refusal (60_exceptions.md R239). -/
def Reason.status : Reason → BitVec 4
  | .badOp => 1
  | .badDescriptor => 2
  | .valueRange => 3
  | .badAddress => 4
  | .badLength => 5
  | .halted => 9

/-- The device's status byte as eight booleans (10_state.md R33). -/
structure StatusFlags where
  overrun : Bool
  zOverrun : Bool
  yOverrun : Bool
  xOverrun : Bool
  newData : Bool
  zNew : Bool
  yNew : Bool
  xNew : Bool
  deriving DecidableEq, Repr

/-- Bit `k` of a register byte: the value of `EXT 1, k, s` read as a boolean (43_host_sequences.md R210). -/
def byteBit (k : Fin 8) (s : Byte) : Bool := fieldExtracted 1 k.val s == 1

/-- The status decode (43_host_sequences.md R210) as a function of the byte, with the places of the six middle flags as
configured. The commands that the host issues for it are in readStatus (Machine/HostSeq.lean). -/
def decodeStatus (l : StatusLayout) (s : Byte) : StatusFlags where
  overrun := byteBit 7 s
  zOverrun := byteBit l.zOverrun s
  yOverrun := byteBit l.yOverrun s
  xOverrun := byteBit l.xOverrun s
  newData := byteBit l.newData s
  zNew := byteBit l.zNew s
  yNew := byteBit l.yNew s
  xNew := byteBit 0 s

/-- What the first control register holds (10_state.md R34): the raw codes of RATE and BW, and the four enables that the
boot write sets. Which of bits 3:0 is which enable is general knowledge (D21). PRESUMED: log 25. -/
structure FirstControl where
  rate : Byte
  bw : Byte
  power : Bool
  zEnable : Bool
  yEnable : Bool
  xEnable : Bool
  deriving DecidableEq, Repr

/-- The first control register read field by field (10_state.md R34): RATE in bits 7:6, BW in bits 5:4, power in bit 3, the
Z, Y and X enables in bits 2, 1 and 0. -/
def decodeFirstControl (b : Byte) : FirstControl where
  rate := fieldExtracted FieldType.rate.width FieldType.rate.shift b
  bw := fieldExtracted FieldType.bw.width FieldType.bw.shift b
  power := byteBit 3 b
  zEnable := byteBit 2 b
  yEnable := byteBit 1 b
  xEnable := byteBit 0 b

end Sys2Proof.Machine
end

