-- ==== Sys2Proof/Machine/Ops.lean ====
section
/-! DEFINITION. The shared operations of the machine: driving the result port, taking the fault InvalidCode, the one way
back from it (reset), and ending a command. The block has no registers and no memory to read or write (10_state.md R20,
20_memory.md); its state is reached only through the operations of this file. -/

namespace Sys2Proof.Machine

/-- Drive the result port with the result of a command that ended ok (30_encoding.md R87). -/
def Result.port : Result → ResultPort
  | .res b => { status := statusOk, res := some b, xd := none, payload := none, invalid := none }
  | .xd x => { status := statusOk, res := none, xd := some x, payload := none, invalid := none }
  | .payload l => { status := statusOk, res := none, xd := none, payload := some l, invalid := none }

/-- A refusal: `status` is set to the reason and nothing else happens (60_exceptions.md R245). -/
def refuse (r : Reason) (s : State) : State :=
  { s with port := { status := r.status, res := none, xd := none, payload := none, invalid := none } }

/-- Taking the fault InvalidCode: `halted <- 1`, `status <- 8`, no value, field type and raw code recorded
(60_exceptions.md R231, R244). There is no handler, vector or mode for control to go to. -/
def raiseInvalidCode (e : InvalidCode) (s : State) : State :=
  { s with
    halted := true
    port := { status := statusInvalidCode, res := none, xd := none, payload := none, invalid := some e } }

/-- Reset, the only return from InvalidCode (60_exceptions.md R247): `halted <- 0` and SLAVE_ID is sampled from the strap
(70_reset_and_hazards.md R260). The ports return to their reset values (log 6). -/
def resetBlock (sa0 : Bool) (s : State) : State :=
  { s with
    halted := false
    slaveId := s.cfg.strapId sa0
    resp := []
    port := .idle }

/-- The outcome of a command on the state and the result port (00_scope.md R18). -/
def report (o : CmdOutcome) (s : State) : State :=
  match o with
  | .ok r => { s with port := r.port }
  | .refuse r => refuse r s
  | .raise e => raiseInvalidCode e s

/-- End a command: while `halted = 1` every command is refused with `Halted` (10_state.md R22, 60_exceptions.md R238);
otherwise the outcome stands. -/
def finish (o : CmdOutcome) (s : State) : Host.Outcome State Fault Refusal :=
  .next (if s.halted then refuse .halted s else report o s)

end Sys2Proof.Machine
end

