-- ==== Sys2Proof/Machine/Framed.lean ====
section
/-! DEFINITION. The framed-bus (SPI) framer commands (41_framer_framed.md), and the admission checks that the two buses
share (R150, 42_framer_addressed.md R170). -/

namespace Sys2Proof.Machine

/-- The start address check of every framing command (41_framer_framed.md R150, 42_framer_addressed.md R170). -/
def withAddress (cfg : Config) (addr : Addr) (o : CmdOutcome) : CmdOutcome :=
  if cfg.named addr.toNat then o else .refuse .badAddress

/-- The checks of a burst, in order: start address, length, every later address (41_framer_framed.md R150, R152). -/
def withBurst (cfg : Config) (addr : Addr) (n : Byte) (o : CmdOutcome) : CmdOutcome :=
  withAddress cfg addr <|
    if n.toNat = 0 then .refuse .badLength
    else if cfg.burstNamed addr n.toNat then o
    else .refuse .badAddress

/-- A framed-bus descriptor: one in-place duplex transfer, as long as what is sent (41_framer_framed.md R157). -/
def duplex (tx : List Byte) : Exchange where
  kind := .duplex
  id := none
  tx := tx
  rxLen := tx.length

/-- FRS.F (41_framer_framed.md R151). -/
def frsFOutcome (cfg : Config) (addr : Addr) : CmdOutcome :=
  withAddress cfg addr <| .ok (.xd (duplex [headerByte cfg.rwRead msSingle addr, cfg.fill]))

/-- FRB.F (41_framer_framed.md R152). -/
def frbFOutcome (cfg : Config) (addr : Addr) (n : Byte) : CmdOutcome :=
  withBurst cfg addr n <|
    .ok (.xd (duplex ([headerByte cfg.rwRead msMulti addr] ++ List.replicate n.toNat cfg.fill)))

/-- FWR.F (41_framer_framed.md R153). -/
def fwrFOutcome (cfg : Config) (addr : Addr) (value : Byte) : CmdOutcome :=
  withAddress cfg addr <| .ok (.xd (duplex [headerByte (rwWrite cfg) msSingle addr, value]))

/-- DRSP.F (41_framer_framed.md R154): the dummy byte is dropped, whatever its value. -/
def drspFOutcome (resp : List Byte) : CmdOutcome :=
  match resp with
  | [] => .refuse .badLength
  | _dummy :: payload => .ok (.payload payload)

/-- FRS.F (41_framer_framed.md R151). -/
def execFrsF (addr : Addr) (s : State) : Host.Outcome State Fault Refusal :=
  finish (frsFOutcome s.cfg addr) s

/-- FRB.F (41_framer_framed.md R152). -/
def execFrbF (addr : Addr) (n : Byte) (s : State) : Host.Outcome State Fault Refusal :=
  finish (frbFOutcome s.cfg addr n) s

/-- FWR.F (41_framer_framed.md R153). -/
def execFwrF (addr : Addr) (value : Byte) (s : State) : Host.Outcome State Fault Refusal :=
  finish (fwrFOutcome s.cfg addr value) s

/-- DRSP.F (41_framer_framed.md R154). -/
def execDrspF (s : State) : Host.Outcome State Fault Refusal :=
  finish (drspFOutcome s.resp) s

end Sys2Proof.Machine
end

