-- ==== Sys2Proof/Machine/Addressed.lean ====
section
/-! DEFINITION. The addressed-bus (I2C) framer commands (42_framer_addressed.md). -/

namespace Sys2Proof.Machine

/-- An addressed-bus descriptor: SLAVE_ID is copied into it and is never a byte of `tx` (42_framer_addressed.md R175). -/
def writeRead (id : Addr) (tx : List Byte) (rxLen : Nat) : Exchange where
  kind := .writeRead
  id := some id
  tx := tx
  rxLen := rxLen

/-- FRS.A (42_framer_addressed.md R171). -/
def frsAOutcome (cfg : Config) (id addr : Addr) : CmdOutcome :=
  withAddress cfg addr <| .ok (.xd (writeRead id [subAddress addr] 1))

/-- FRB.A (42_framer_addressed.md R172). -/
def frbAOutcome (cfg : Config) (id addr : Addr) (n : Byte) : CmdOutcome :=
  withBurst cfg addr n <| .ok (.xd (writeRead id [subAddressBurst addr] n.toNat))

/-- FWR.A (42_framer_addressed.md R173). -/
def fwrAOutcome (cfg : Config) (id addr : Addr) (value : Byte) : CmdOutcome :=
  withAddress cfg addr <| .ok (.xd (writeRead id [subAddress addr, value] 0))

/-- DRSP.A (42_framer_addressed.md R174): the identity on lists. -/
def drspAOutcome (resp : List Byte) : CmdOutcome := .ok (.payload resp)

/-- FRS.A (42_framer_addressed.md R171). -/
def execFrsA (addr : Addr) (s : State) : Host.Outcome State Fault Refusal :=
  finish (frsAOutcome s.cfg s.slaveId addr) s

/-- FRB.A (42_framer_addressed.md R172). -/
def execFrbA (addr : Addr) (n : Byte) (s : State) : Host.Outcome State Fault Refusal :=
  finish (frbAOutcome s.cfg s.slaveId addr n) s

/-- FWR.A (42_framer_addressed.md R173). -/
def execFwrA (addr : Addr) (value : Byte) (s : State) : Host.Outcome State Fault Refusal :=
  finish (fwrAOutcome s.cfg s.slaveId addr value) s

/-- DRSP.A (42_framer_addressed.md R174). -/
def execDrspA (s : State) : Host.Outcome State Fault Refusal :=
  finish (drspAOutcome s.resp) s

end Sys2Proof.Machine
end

