-- ==== Sys2Proof/Machine/Codec.lean ====
section
/-! DEFINITION. The bitfield codec commands (40_bitfield_codec.md). Each has the outcome its pseudocode gives, in the
order of its checks, as a function of its operands and the constant tables; `finish` puts the `Halted` check first. -/

namespace Sys2Proof.Machine

/-- The descriptor check that every format D command makes (40_bitfield_codec.md R120). -/
def withDesc (width shift : BitVec 4) (o : CmdOutcome) : CmdOutcome :=
  if wfDesc width.toNat shift.toNat then o else .refuse .badDescriptor

/-- The value check of ENC and INS (40_bitfield_codec.md R120, 30_encoding.md R104). -/
def withValue (width : BitVec 4) (value : Byte) (o : CmdOutcome) : CmdOutcome :=
  if value.toNat ≥ 2 ^ width.toNat then .refuse .valueRange else o

/-- The field type check of FDEC and FINS (30_encoding.md R102). -/
def withField (ftype : BitVec 4) (o : FieldType → CmdOutcome) : CmdOutcome :=
  match FieldType.ofCode ftype with
  | some ft => o ft
  | none => .refuse .badDescriptor

/-- MASK (40_bitfield_codec.md R121). -/
def maskOutcome (width shift : BitVec 4) : CmdOutcome :=
  withDesc width shift <| .ok (.res (fieldMask width.toNat shift.toNat))

/-- ENC (40_bitfield_codec.md R122). -/
def encOutcome (width shift : BitVec 4) (value : Byte) : CmdOutcome :=
  withDesc width shift <| withValue width value <|
    .ok (.res (fieldEncoded width.toNat shift.toNat value))

/-- INS (40_bitfield_codec.md R123). -/
def insOutcome (width shift : BitVec 4) (value byte : Byte) : CmdOutcome :=
  withDesc width shift <| withValue width value <|
    .ok (.res (fieldInserted width.toNat shift.toNat value byte))

/-- EXT (40_bitfield_codec.md R124). -/
def extOutcome (width shift : BitVec 4) (byte : Byte) : CmdOutcome :=
  withDesc width shift <| .ok (.res (fieldExtracted width.toNat shift.toNat byte))

/-- FDEC (40_bitfield_codec.md R125): the canonical code of the raw field, or InvalidCode. -/
def fdecOutcome (cfg : Config) (ftype : BitVec 4) (byte : Byte) : CmdOutcome :=
  withField ftype fun ft =>
    let raw := fieldExtracted ft.width ft.shift byte
    match (cfg.decTable ft).lookup raw with
    | some c => .ok (.res c)
    | none => .raise ⟨ft, raw⟩

/-- FINS (40_bitfield_codec.md R126): only a canonical code is inserted. -/
def finsOutcome (cfg : Config) (ftype : BitVec 4) (code byte : Byte) : CmdOutcome :=
  withField ftype fun ft =>
    if code ∈ (cfg.decTable ft).codes then .ok (.res (fieldInserted ft.width ft.shift code byte))
    else .refuse .valueRange

/-- MASK (40_bitfield_codec.md R121). -/
def execMask (width shift : BitVec 4) (s : State) : Host.Outcome State Fault Refusal :=
  finish (maskOutcome width shift) s

/-- ENC (40_bitfield_codec.md R122). -/
def execEnc (width shift : BitVec 4) (value : Byte) (s : State) : Host.Outcome State Fault Refusal :=
  finish (encOutcome width shift value) s

/-- INS (40_bitfield_codec.md R123). -/
def execIns (width shift : BitVec 4) (value byte : Byte) (s : State) : Host.Outcome State Fault Refusal :=
  finish (insOutcome width shift value byte) s

/-- EXT (40_bitfield_codec.md R124). -/
def execExt (width shift : BitVec 4) (byte : Byte) (s : State) : Host.Outcome State Fault Refusal :=
  finish (extOutcome width shift byte) s

/-- FDEC (40_bitfield_codec.md R125). -/
def execFdec (ftype : BitVec 4) (byte : Byte) (s : State) : Host.Outcome State Fault Refusal :=
  finish (fdecOutcome s.cfg ftype byte) s

/-- FINS (40_bitfield_codec.md R126). -/
def execFins (ftype : BitVec 4) (code byte : Byte) (s : State) : Host.Outcome State Fault Refusal :=
  finish (finsOutcome s.cfg ftype code byte) s

end Sys2Proof.Machine
end

