-- ==== Sys2Proof/Machine/Dispatch.lean ====
section
/-! DEFINITION. One arm per command (30_encoding.md R81). -/

namespace Sys2Proof.Machine

def exec (i : Instr) (s : State) : Host.Outcome State Fault Refusal :=
  match i with
  | .mask w sh => Sys2Proof.Machine.execMask w sh s
  | .enc w sh v => Sys2Proof.Machine.execEnc w sh v s
  | .ins w sh v b => Sys2Proof.Machine.execIns w sh v b s
  | .ext w sh b => Sys2Proof.Machine.execExt w sh b s
  | .fdec f b => Sys2Proof.Machine.execFdec f b s
  | .fins f c b => Sys2Proof.Machine.execFins f c b s
  | .frsF a => Sys2Proof.Machine.execFrsF a s
  | .frbF a n => Sys2Proof.Machine.execFrbF a n s
  | .fwrF a v => Sys2Proof.Machine.execFwrF a v s
  | .drspF => Sys2Proof.Machine.execDrspF s
  | .frsA a => Sys2Proof.Machine.execFrsA a s
  | .frbA a n => Sys2Proof.Machine.execFrbA a n s
  | .fwrA a v => Sys2Proof.Machine.execFwrA a v s
  | .drspA => Sys2Proof.Machine.execDrspA s

end Sys2Proof.Machine
end

