-- ==== Sys2Proof/Machine/Issue.lean ====
section
/-! DEFINITION. What one step does with the next input: a command word on the command port, or the reset input
(30_encoding.md R80, 60_exceptions.md R242, 70_reset_and_hazards.md R260). Step.lean only calls it. -/

namespace Sys2Proof.Machine

/-- A command word on the command port, with its response list already on the response port: `Halted` comes first, then
`BadOp`, then the command (60_exceptions.md R242). -/
def runWord (w : Word) (s : State) : Host.Outcome State Fault Refusal :=
  if s.halted then .next (refuse .halted s)
  else
    match decode w with
    | .error _ => .next (refuse .badOp s)
    | .ok i => exec i s

/-- Nothing of a response list survives the command that carries it (10_state.md R26). -/
def clearResp : Host.Outcome State Fault Refusal → Host.Outcome State Fault Refusal
  | .next s => .next { s with resp := [] }
  | .fault f => .fault f
  | .refused r => .refused r

/-- One step: the block takes the next input, completely, before it looks at the one after it (30_encoding.md R80); with
nothing presented it executes nothing (10_state.md R42). -/
def takeInput (s : State) : Host.Outcome State Fault Refusal :=
  match s.inputs with
  | [] => .next s
  | .reset sa0 :: rest => .next (resetBlock sa0 { s with inputs := rest })
  | .command w resp :: rest => clearResp (runWord w { s with inputs := rest, resp := resp })

/-- The host presents a command word, with a response list, as the block's next input (30_encoding.md R80). -/
def present (w : Word) (resp : List Byte) (s : State) : State :=
  { s with inputs := .command w resp :: s.inputs }

/-- The outside asserts the reset input, with the strap SA0 at a level, as the block's next input
(70_reset_and_hazards.md R260). -/
def assertReset (sa0 : Bool) (s : State) : State :=
  { s with inputs := .reset sa0 :: s.inputs }

end Sys2Proof.Machine
end

