-- ==== Sys2Proof/Machine/Step.lean ====
section
/-! DEFINITION. The step of the machine, and the host's way to make a given instruction the next one. -/

namespace Sys2Proof.Machine

/-- One step of the machine: the block takes its next input (Machine/Issue.lean). -/
def step (s : State) : Host.Outcome State Fault Refusal := takeInput s

/-- `s` with the command word `w` as the block's next input; the response list presented with it is the one that stands on
the response port of `s`. Commands are presented from outside (10_state.md R21; log 9). -/
def State.withFetchWord (s : State) (_nbits w : Nat) : State := present (BitVec.ofNat 32 w) s.resp s

end Sys2Proof.Machine
end

