-- ==== Sys2Proof/Machine/Device.lean ====
section
/-! DEFINITION. The far side of the bus, outside the block: the transport and device as an oracle (10_state.md R28, R39),
and, for claims that name it as a premise, the idealised device that is plain storage (R46, D22) and reads the frames
as the source says a device does (R37, R38, 41_framer_framed.md R156). Neither is part of State. -/

namespace Sys2Proof.Machine

/-- The transport's own error detail, opaque to block and host (60_exceptions.md R232). -/
structure TransportError where
  detail : Nat
  deriving DecidableEq, Repr

/-- What an exchange returns: all its bytes, or an error (00_scope.md R17). -/
inductive Answer
  | bytes (rx : List Byte)
  | error (e : TransportError)
  deriving DecidableEq, Repr

/-- How many bytes the answer to an exchange has, when it is not an error: as many as were shifted out, or as many as were to
be read (00_scope.md R17, 43_host_sequences.md R191). -/
def Exchange.answerLength (x : Exchange) : Nat :=
  match x.kind with
  | .duplex => x.tx.length
  | .writeRead => x.rxLen

/-! ## The storage device -/

/-- The register file of the storage device: one byte at each 7-bit address, of any value (10_state.md R43). -/
structure DeviceFile where
  cells : Vector Byte 128
  deriving DecidableEq, Repr

/-- `DEV[a]`; there is no register at or above 128. -/
def DeviceFile.read (d : DeviceFile) (a : Nat) : Option Byte := d.cells[a]?

/-- The register file after the device has taken the byte `v` for register `a`. -/
def DeviceFile.write (d : DeviceFile) (a : Addr) (v : Byte) : DeviceFile := ⟨d.cells.set a.toNat v⟩

/-- The bytes a device shifts out: the register at its pointer, which steps up after each byte (10_state.md R37). -/
def DeviceFile.shiftOut (d : DeviceFile) (pointer : Nat) : Nat → Option (List Byte)
  | 0 => some []
  | n + 1 =>
    match d.read pointer, d.shiftOut (pointer + 1) n with
    | some b, some l => some (b :: l)
    | _, _ => none

/-- The plain storage device of D22: its registers, the byte it shifts out during the address phase (any value,
10_state.md R38), and the polarity of the read/write bit it obeys. The dummy byte is one value for every exchange of the
device, where the spec lets it differ from one to the next (R38, R45). DESIGN CHOICE: log 15. -/
structure StorageDevice where
  file : DeviceFile
  dummy : Byte
  readBit : BitVec 1
  deriving DecidableEq, Repr

/-- The device's answer to a framed-bus transfer (41_framer_framed.md R156): dummy byte first; then, for a read, the
addressed register, and with the multi bit the following ones; for a write the second byte is taken as the new value.
A frame the block never produces (30_encoding.md R108) has no answer. -/
def StorageDevice.transfer (d : StorageDevice) : List Byte → Option (List Byte × StorageDevice)
  | [] => none
  | header :: rest =>
    let pointer := (header.extractLsb' 0 6).toNat
    let multi := header.extractLsb' 6 1 == 1
    if header.extractLsb' 7 1 == d.readBit then
      if multi || rest.length == 1 then
        (d.file.shiftOut pointer rest.length).map fun l => (d.dummy :: l, d)
      else none
    else
      match rest with
      | [v] =>
        if multi then none
        else some ([d.dummy, d.dummy], { d with file := d.file.write ((header.extractLsb' 0 6).setWidth 7) v })
      | _ => none

/-- The device's answer to an addressed-bus access (30_encoding.md R91, 42_framer_addressed.md R176): one byte written
and then reading, with the marker the following registers too; two bytes written and no reading is a write. -/
def StorageDevice.writeThenRead (d : StorageDevice) (rxLen : Nat) : List Byte → Option (List Byte × StorageDevice)
  | [sub] =>
    if (sub.extractLsb' 7 1 == 1 && 1 ≤ rxLen) || (sub.extractLsb' 7 1 == 0 && rxLen == 1) then
      (d.file.shiftOut (sub.extractLsb' 0 7).toNat rxLen).map fun l => (l, d)
    else none
  | [sub, v] =>
    if sub.extractLsb' 7 1 == 0 && rxLen == 0 then
      some ([], { d with file := d.file.write (sub.extractLsb' 0 7) v })
    else none
  | _ => none

/-- One exchange with the storage device. -/
def StorageDevice.exchange (d : StorageDevice) (x : Exchange) : Option (List Byte × StorageDevice) :=
  match x.kind with
  | .duplex => d.transfer x.tx
  | .writeRead => d.writeThenRead x.rxLen x.tx

/-! ## The far side -/

/-- The far side of the bus: the oracle of the spec, as the list of its answers, or the named storage premise. -/
inductive FarSide
  | oracle (answers : List Answer)
  | storage (d : StorageDevice)
  deriving DecidableEq, Repr

/-- One exchange: its answer and the far side after it; nothing if no answer ever comes (70_reset_and_hazards.md
R279). -/
def FarSide.exchange (x : Exchange) : FarSide → Option (Answer × FarSide)
  | .oracle [] => none
  | .oracle (a :: rest) => some (a, .oracle rest)
  | .storage d => (d.exchange x).map fun p => (.bytes p.1, .storage p.2)

end Sys2Proof.Machine
end

