-- ==== Sys2Proof/Machine/Payload.lean ====
section
/-! DEFINITION. The host's reading of payload bytes (43_host_sequences.md R210 to R220): signed axis values, temperature,
degrees and radians, and the enumerators by their documented codes. None of it is a command of the block. -/

namespace Sys2Proof.Machine

/-- `axis(lo, hi) = as_signed_16(lo | (hi << 8))`, on 16 bits (43_host_sequences.md R211). -/
def axis (lo hi : Byte) : Int := (lo.setWidth 16 ||| (hi.setWidth 16 <<< 8)).toInt

/-- Three signed 16-bit values (43_host_sequences.md R212). -/
structure Measurement where
  x : Int
  y : Int
  z : Int
  deriving DecidableEq, Repr

/-- The measurement of six bytes, X low, X high, Y low, Y high, Z low, Z high (43_host_sequences.md R195, R212). -/
def measurement : List Byte → Option Measurement
  | [xl, xh, yl, yh, zl, zh] => some ⟨axis xl xh, axis yl yh, axis zl zh⟩
  | _ => none

/-- `raw = as_signed_8(b)` (43_host_sequences.md R213). -/
def rawTemperature (b : Byte) : Int := b.toInt

/-- `T = 25 - raw`, a mathematical integer (43_host_sequences.md R214, R215). -/
def celsius (raw : Int) : Int := tempBias - raw

/-- The data rate enumerators (10_state.md R30). PRESUMED: log 3. -/
inductive Rate
  | hz95
  | hz190
  | hz380
  | hz760
  deriving DecidableEq, Repr

/-- The documented code of a data rate (10_state.md R30). -/
def Rate.code : Rate → Byte
  | .hz95 => 0
  | .hz190 => 1
  | .hz380 => 2
  | .hz760 => 3

/-- The bandwidth enumerators (10_state.md R31). PRESUMED: log 3. -/
inductive Bandwidth
  | low
  | medium
  | high
  | maximum
  deriving DecidableEq, Repr

/-- The documented code of a bandwidth (10_state.md R31). -/
def Bandwidth.code : Bandwidth → Byte
  | .low => 0
  | .medium => 1
  | .high => 2
  | .maximum => 3

/-- The full-scale selectors (10_state.md R32). -/
inductive FullScale
  | dps250
  | dps500
  | dps2000
  deriving DecidableEq, Repr

/-- The documented code of a full-scale selector (10_state.md R32). -/
def FullScale.code : FullScale → Byte
  | .dps250 => 0
  | .dps500 => 1
  | .dps2000 => 3

/-- The selector that a canonical code names (10_state.md R29, R32). -/
def FullScale.ofCode (c : Byte) : Option FullScale :=
  match c.toNat with
  | 0 => some .dps250
  | 1 => some .dps500
  | 3 => some .dps2000
  | _ => none

/-- Degrees per count: 0.00875, 0.0175, 0.07, exactly (43_host_sequences.md R216, R219). -/
def FullScale.multiplier : FullScale → Rat
  | .dps250 => 7 / 800
  | .dps500 => 7 / 400
  | .dps2000 => 7 / 100

/-- `deg = count × k` (43_host_sequences.md R217). -/
def degrees (sel : FullScale) (count : Int) : Rat := (count : Rat) * sel.multiplier

/-- An angle in radians as an exact multiple of π, which stays symbolic (43_host_sequences.md R219; log 18). -/
structure Radians where
  timesPi : Rat
  deriving DecidableEq, Repr

/-- `rad = deg × π/180` (43_host_sequences.md R218). -/
def radians (deg : Rat) : Radians := ⟨deg / 180⟩

/-- The two expected identity bytes, which neither block nor host checks (10_state.md R36, D29). PRESUMED: log 3. -/
def identityConstants : List Byte := [0xD4, 0xD7]

end Sys2Proof.Machine
end

