-- ==== Sys2Proof/Machine/HostSeq.lean ====
section
/-! DEFINITION. The host contract (43_host_sequences.md R190 to R203, 20_memory.md R72 to R74): the straight-line
sequences of the source's Register Engine, as functions that present command words to the block, run `step`, and hand
exchange descriptors to the far side of the bus. Outside the block: nothing here adds a command (log 13). -/

namespace Sys2Proof.Machine

/-- The block, the far side of the bus, and the exchanges handed to the transport so far, oldest first
(20_memory.md R65). -/
structure World where
  block : State
  far : FarSide
  wire : List Exchange
  deriving DecidableEq, Repr

/-- Why a host sequence stops before its end (43_host_sequences.md R190). -/
inductive HostStop
  /-- The transport's error, unchanged (60_exceptions.md R246). -/
  | transportError (e : TransportError)
  /-- The block answered a refusal or the fault; the result port as it stands. -/
  | notOk (port : ResultPort)
  /-- The transport never answers (70_reset_and_hazards.md R279). -/
  | noAnswer
  /-- The transport's answer is not as long as the exchange asks: it broke its boundary (00_scope.md R17, 30_encoding.md
  R110; log 22). -/
  | wrongLength
  /-- No level of the strap selects the identity given to `construct` (10_state.md R23; log 16). -/
  | noSuchIdentity
  /-- REGMAP names no such register, or lays them out otherwise than the sequence needs (log 17). -/
  | unnamedRegister
  /-- The block's step gave no next state (no command does this). -/
  | noMeaning
  deriving DecidableEq, Repr

/-- A host sequence ends with a value, or stops at the first error (43_host_sequences.md R190). -/
inductive HostResult (α : Type)
  | done (a : α) (w : World)
  | stopped (why : HostStop) (w : World)
  deriving DecidableEq, Repr

/-- The next step of a straight-line sequence: not executed after a stop (43_host_sequences.md R190). -/
def HostResult.andThen {α β : Type} (r : HostResult α) (k : α → World → HostResult β) : HostResult β :=
  match r with
  | .done a w => k a w
  | .stopped why w => .stopped why w

/-- A value the host needs, or the reason it has none. -/
def need {α : Type} (o : Option α) (why : HostStop) (w : World) : HostResult α :=
  match o with
  | some a => .done a w
  | none => .stopped why w

/-- Issue one command: present its word with the response list, run one step, read the result port. -/
def issue (i : Instr) (resp : List Byte) (w : World) : HostResult ResultPort :=
  match step (present (encode i) resp w.block) with
  | .next b =>
    if b.port.status = statusOk then .done b.port { w with block := b }
    else .stopped (.notOk b.port) { w with block := b }
  | .fault _ => .stopped .noMeaning w
  | .refused _ => .stopped .noMeaning w

/-- `XFER`: hand an exchange descriptor to the transport (43_host_sequences.md R191); one descriptor is one exchange, with
no retry (20_memory.md R59). It ends with all the bytes of the answer, as many as the exchange asks (00_scope.md R17), or
with the transport's error; a list of another length is no answer of a transport, and the sequence stops (log 22). -/
def xfer (x : Exchange) (w : World) : HostResult (List Byte) :=
  match w.far.exchange x with
  | some (.bytes rx, far) =>
    if rx.length = x.answerLength then .done rx { w with far := far, wire := w.wire ++ [x] }
    else .stopped .wrongLength { w with far := far, wire := w.wire ++ [x] }
  | some (.error e, far) => .stopped (.transportError e) { w with far := far, wire := w.wire ++ [x] }
  | none => .stopped .noAnswer { w with wire := w.wire ++ [x] }

/-- Issue a framing command and perform its exchange. -/
def access (i : Instr) (w : World) : HostResult (List Byte) :=
  (issue i [] w).andThen fun port w =>
  (need port.xd .noMeaning w).andThen fun x w =>
  xfer x w

/-- Issue `DRSP.t` on a response list and take the payload. -/
def payloadOf (t : Bus) (rx : List Byte) (w : World) : HostResult (List Byte) :=
  (issue (.drsp t) rx w).andThen fun port w => need port.payload .noMeaning w

/-- `MemRead(addr, 1)` by single read (20_memory.md R72). -/
def memReadSingle (t : Bus) (addr : Addr) (w : World) : HostResult (List Byte) :=
  (access (.frs t addr) w).andThen fun rx w => payloadOf t rx w

/-- `MemRead(addr, n)` by burst read (20_memory.md R73). -/
def memReadBurst (t : Bus) (addr : Addr) (n : Byte) (w : World) : HostResult (List Byte) :=
  (access (.frb t addr n) w).andThen fun rx w => payloadOf t rx w

/-- `MemWrite(addr, 1, v)` (20_memory.md R74): what is received is discarded, and no DRSP is issued. -/
def memWrite (t : Bus) (addr : Addr) (v : Byte) (w : World) : HostResult Unit :=
  (access (.fwr t addr v) w).andThen fun _ w => .done () w

/-- The one byte of a single read (`MemRead(addr, 1)[0]`). -/
def readByte (t : Bus) (addr : Addr) (w : World) : HostResult Byte :=
  (memReadSingle t addr w).andThen fun payload w => need payload[0]? .wrongLength w

/-- Reset the block with the strap at a level, and let it take the reset. -/
def resetWith (sa0 : Bool) (w : World) : HostResult Unit :=
  match step (assertReset sa0 w.block) with
  | .next b => .done () { w with block := b }
  | .fault _ => .stopped .noMeaning w
  | .refused _ => .stopped .noMeaning w

/-- Make an identity SLAVE_ID the one way there is, by the strap (10_state.md R23, R41): an identity that no level selects is
turned away; where SLAVE_ID is the identity already nothing happens; otherwise the strap is set and the block reset.
DESIGN CHOICE: log 16. -/
def adoptIdentity (id : Addr) (w : World) : HostResult Unit :=
  (need (w.block.cfg.strapFor id) .noSuchIdentity w).andThen fun sa0 w =>
  if w.block.slaveId = id then .done () w else resetWith sa0 w

/-- The identity given to `construct`: present only on the addressed bus (43_host_sequences.md R192). Where none is given on
the addressed bus, SLAVE_ID stays what the strap made it. DESIGN CHOICE: log 16. -/
def takeIdentity (t : Bus) (identity : Option Addr) (w : World) : HostResult Unit :=
  match t, identity with
  | .addressed, some id => adoptIdentity id w
  | .addressed, none => .done () w
  | .framed, _ => .done () w

/-- `construct` (43_host_sequences.md R192): the identity becomes SLAVE_ID (log 16); then exactly one write of
`0b0000_1111` to the first control register, and no read. -/
def construct (t : Bus) (identity : Option Addr) (w : World) : HostResult Unit :=
  (takeIdentity t identity w).andThen fun _ w =>
  (need (w.block.cfg.addrOf .ctrlReg1) .unnamedRegister w).andThen fun ctrl1 w =>
  memWrite t ctrl1 ctrl1Init w

/-- `read_identity` (43_host_sequences.md R193): one single read; the value is not checked. -/
def readIdentity (t : Bus) (w : World) : HostResult Byte :=
  (need (w.block.cfg.addrOf .whoAmI) .unnamedRegister w).andThen fun a w => readByte t a w

/-- `BIT k, s` issued, and its result read as a boolean (43_host_sequences.md R210, 30_encoding.md R113). -/
def readBit (k : Fin 8) (s : Byte) (w : World) : HostResult Bool :=
  (issue (.bit (BitVec.ofNat 4 k.val) s) [] w).andThen fun port w =>
  (need port.res .noMeaning w).andThen fun r w =>
  .done (r == 1) w

/-- The status decode by commands: eight `BIT`, one for a flag, as program P5 of 95_test_vectors.md issues them
(43_host_sequences.md R210). They go in the order of the flags of 10_state.md R33, which is P5's order under the default
places. DESIGN CHOICE under other places: log 24. -/
def readFlags (l : StatusLayout) (s : Byte) (w : World) : HostResult StatusFlags :=
  (readBit 7 s w).andThen fun overrun w =>
  (readBit l.zOverrun s w).andThen fun zOverrun w =>
  (readBit l.yOverrun s w).andThen fun yOverrun w =>
  (readBit l.xOverrun s w).andThen fun xOverrun w =>
  (readBit l.newData s w).andThen fun newData w =>
  (readBit l.zNew s w).andThen fun zNew w =>
  (readBit l.yNew s w).andThen fun yNew w =>
  (readBit 0 s w).andThen fun xNew w =>
  .done ⟨overrun, zOverrun, yOverrun, xOverrun, newData, zNew, yNew, xNew⟩ w

/-- `read_status` (43_host_sequences.md R194): single read, then the bit decode by the eight commands of
program P5 (log 24). -/
def readStatus (t : Bus) (w : World) : HostResult StatusFlags :=
  (need (w.block.cfg.addrOf .statusReg) .unnamedRegister w).andThen fun a w =>
  (readByte t a w).andThen fun s w =>
  readFlags w.block.cfg.statusBits s w

/-- `read_gyro` (43_host_sequences.md R195): a burst read of 6 bytes from the first axis register. -/
def readGyro (t : Bus) (w : World) : HostResult Measurement :=
  (need (w.block.cfg.addrOf .outXL) .unnamedRegister w).andThen fun a w =>
  (memReadBurst t a 6 w).andThen fun payload w =>
  need (measurement payload) .wrongLength w

/-- `AXIS_OFF = addr(OUT_X_L) - addr(OUT_TEMP)` (43_host_sequences.md R196), where the axes come after the temperature. -/
def axisOff (cfg : Config) : Option Nat :=
  match cfg.addrOf .outTemp, cfg.addrOf .outXL with
  | some t, some x => if t.toNat < x.toNat then some (x.toNat - t.toNat) else none
  | _, _ => none

/-- `read_all` (43_host_sequences.md R196): one burst of `AXIS_OFF + 6` bytes from the temperature register; the raw
temperature is `payload[0]`, the axes are `payload[AXIS_OFF]` to `payload[AXIS_OFF + 5]`. -/
def readAll (t : Bus) (w : World) : HostResult (Int × Measurement) :=
  (need (w.block.cfg.addrOf .outTemp) .unnamedRegister w).andThen fun a w =>
  (need (axisOff w.block.cfg) .unnamedRegister w).andThen fun off w =>
  (memReadBurst t a (BitVec.ofNat 8 (off + 6)) w).andThen fun payload w =>
  (need payload[0]? .wrongLength w).andThen fun b w =>
  (need (measurement (payload.drop off)) .wrongLength w).andThen fun m w =>
  .done (rawTemperature b, m) w

/-- `get_<field>` (43_host_sequences.md R197): single read of the host register, `FDEC`. -/
def getField (t : Bus) (ft : FieldType) (w : World) : HostResult Byte :=
  (need (w.block.cfg.hostReg ft) .unnamedRegister w).andThen fun h w =>
  (readByte t h w).andThen fun b w =>
  (issue (.fdec ft.code b) [] w).andThen fun port w =>
  need port.res .noMeaning w

/-- `set_<field>(c)` (43_host_sequences.md R198): single read, `FINS`, single write, in this order. -/
def setField (t : Bus) (ft : FieldType) (c : Byte) (w : World) : HostResult Unit :=
  (need (w.block.cfg.hostReg ft) .unnamedRegister w).andThen fun h w =>
  (readByte t h w).andThen fun cur w =>
  (issue (.fins ft.code c cur) [] w).andThen fun port w =>
  (need port.res .noMeaning w).andThen fun b w =>
  memWrite t h b w

/-- `get_data_rate` (43_host_sequences.md R199). -/
def getDataRate (t : Bus) (w : World) : HostResult Byte := getField t .rate w

/-- `set_data_rate` (43_host_sequences.md R199). -/
def setDataRate (t : Bus) (c : Byte) (w : World) : HostResult Unit := setField t .rate c w

/-- `get_bandwidth` (43_host_sequences.md R200). -/
def getBandwidth (t : Bus) (w : World) : HostResult Byte := getField t .bw w

/-- `set_bandwidth` (43_host_sequences.md R200). -/
def setBandwidth (t : Bus) (c : Byte) (w : World) : HostResult Unit := setField t .bw c w

/-- `get_full_scale` (43_host_sequences.md R201). -/
def getFullScale (t : Bus) (w : World) : HostResult Byte := getField t .fs w

/-- `set_full_scale` (43_host_sequences.md R201). -/
def setFullScale (t : Bus) (c : Byte) (w : World) : HostResult Unit := setField t .fs c w

end Sys2Proof.Machine
end

