-- ==== Sys2Proof/WellFormed.lean ====
section
/-! DEFINITION. Which commands a block of a given configuration admits: the operand checks of 30_encoding.md R102 to
R106 that read the command word alone. (That the response list of DRSP.F is not empty, and that a raw code of FDEC is
mapped, are checks of data and are made when the command runs.) -/

namespace Sys2Proof

open Sys2Proof.Machine

/-- The operand checks of a command under a configuration. -/
def Instr.wf (cfg : Config) : Instr → Bool
  | .mask w s => wfDesc w.toNat s.toNat
  | .enc w s v => wfDesc w.toNat s.toNat && decide (v.toNat < 2 ^ w.toNat)
  | .ins w s v _ => wfDesc w.toNat s.toNat && decide (v.toNat < 2 ^ w.toNat)
  | .ext w s _ => wfDesc w.toNat s.toNat
  | .fdec f _ => (FieldType.ofCode f).isSome
  | .fins f c _ =>
    match FieldType.ofCode f with
    | some ft => decide (c ∈ (cfg.decTable ft).codes)
    | none => false
  | .frsF a => cfg.named a.toNat
  | .frbF a n => decide (1 ≤ n.toNat) && cfg.burstNamed a n.toNat
  | .fwrF a _ => cfg.named a.toNat
  | .drspF => true
  | .frsA a => cfg.named a.toNat
  | .frbA a n => decide (1 ≤ n.toNat) && cfg.burstNamed a n.toNat
  | .fwrA a _ => cfg.named a.toNat
  | .drspA => true

end Sys2Proof
end

