-- ==== Sys2Proof/Safety.lean ====
section
/-! DEFINITION. The terms the claims use: what a command answers, the causes of a refusal or fault in the order of the
spec, the opcode table, the invariant of the machine, and the bits of a field. Written from the rules, not from the
meanings, so that a claim compares the two. -/

namespace Sys2Proof.Machine

/-! ## What a command answers

Each of these fixes the whole next state: everything but the result port is as before. -/

/-- The result port of a command that ends ok with `b` as `res` (30_encoding.md R87; status 0, R239). -/
def resPort (b : Byte) : ResultPort := ⟨0, some b, none, none, none⟩

/-- The result port of a command that ends ok with the descriptor `x`. -/
def xdPort (x : Exchange) : ResultPort := ⟨0, none, some x, none, none⟩

/-- The result port of a command that ends ok with the payload `l`. -/
def payloadPort (l : List Byte) : ResultPort := ⟨0, none, none, some l, none⟩

/-- The result port of a refusal with a status code: the other parts carry nothing (30_encoding.md R87). -/
def refusalPort (code : BitVec 4) : ResultPort := ⟨code, none, none, none, none⟩

/-- The result port of the fault InvalidCode (60_exceptions.md R231, R244). -/
def invalidPort (ft : FieldType) (raw : Byte) : ResultPort := ⟨8, none, none, none, some ⟨ft, raw⟩⟩

/-- `i` ends ok with the byte `b`; nothing but the result port changes. -/
def AnswersRes (i : Instr) (s : State) (b : Byte) : Prop := exec i s = .next { s with port := resPort b }

/-- `i` ends ok with the exchange descriptor `x`; nothing but the result port changes. -/
def AnswersXd (i : Instr) (s : State) (x : Exchange) : Prop := exec i s = .next { s with port := xdPort x }

/-- `i` ends ok with the payload `l`; nothing but the result port changes. -/
def AnswersPayload (i : Instr) (s : State) (l : List Byte) : Prop :=
  exec i s = .next { s with port := payloadPort l }

/-- `i` is refused with a status code; nothing but the result port changes (60_exceptions.md R245). -/
def RefusedWith (i : Instr) (s : State) (code : BitVec 4) : Prop :=
  exec i s = .next { s with port := refusalPort code }

/-! ## Descriptors and bits -/

/-- A well-formed descriptor, as 40_bitfield_codec.md R120 writes it. -/
def WfDesc (w s : BitVec 4) : Prop :=
  1 ≤ w.toNat ∧ w.toNat ≤ 8 ∧ s.toNat ≤ 7 ∧ s.toNat + w.toNat ≤ 8

/-- Bit `k` of a byte lies in the field of width `w` at shift `s`. -/
def InField (w s : BitVec 4) (k : Nat) : Prop := s.toNat ≤ k ∧ k < s.toNat + w.toNat

/-- The address is one of the map's rows. -/
def Named (cfg : Config) (a : Nat) : Prop := ∃ row ∈ cfg.regmap, row.1.toNat = a

/-- Every address of the burst is one of the map's rows; addresses are natural numbers (20_memory.md R64). -/
def BurstNamed (cfg : Config) (a : Addr) (n : Nat) : Prop := ∀ k, k < n → Named cfg (a.toNat + k)

/-- `c` is a canonical code of the field type: it is in the image of the decode table (10_state.md R29). -/
def Canonical (cfg : Config) (ft : FieldType) (c : Byte) : Prop :=
  ∃ raw : Byte, (cfg.decTable ft).lookup raw = some c

/-! ## The opcode table (30_encoding.md R100) -/

/-- A row of the table. -/
structure OpcodeRow where
  mnemonic : String
  word : Word
  mask : Word
  deriving DecidableEq, Repr

/-- The table of R100, row by row. -/
def opcodeRows : List OpcodeRow :=
  [⟨"MASK", 0x10000000, 0xF00FFFFF⟩, ⟨"ENC", 0x20000000, 0xF00F00FF⟩, ⟨"INS", 0x30000000, 0xF00F0000⟩,
   ⟨"EXT", 0x40000000, 0xF00FFF00⟩, ⟨"FDEC", 0x50000000, 0xF0FFFF00⟩, ⟨"FINS", 0x60000000, 0xF0FF0000⟩,
   ⟨"FRS.F", 0x80000000, 0xFFFFFF80⟩, ⟨"FRB.F", 0x90000000, 0xFF00FF80⟩, ⟨"FWR.F", 0xA0000000, 0xFFFF0080⟩,
   ⟨"DRSP.F", 0xB0000000, 0xFFFFFFFF⟩, ⟨"FRS.A", 0x88000000, 0xFFFFFF80⟩, ⟨"FRB.A", 0x98000000, 0xFF00FF80⟩,
   ⟨"FWR.A", 0xA8000000, 0xFFFF0080⟩, ⟨"DRSP.A", 0xB8000000, 0xFFFFFFFF⟩]

/-- The word spells the command of the row (R100). -/
def Spells (w : Word) (row : OpcodeRow) : Prop := w &&& row.mask = row.word

/-! ## Causes, in the order of 60_exceptions.md R242 -/

/-- The descriptor or the field type of the command is illegal (R234). -/
def badDescriptorCause : Instr → Prop
  | .mask w s | .enc w s _ | .ins w s _ _ | .ext w s _ => ¬WfDesc w s
  | .fdec f _ | .fins f _ _ => 2 < f.toNat
  | .frsF _ | .frbF _ _ | .fwrF _ _ | .drspF | .frsA _ | .frbA _ _ | .fwrA _ _ | .drspA => False

/-- The value does not fit the width, or the code is not canonical (R235). -/
def valueRangeCause (cfg : Config) : Instr → Prop
  | .enc w _ v | .ins w _ v _ => 2 ^ w.toNat ≤ v.toNat
  | .fins f c _ => ∀ ft, f = FieldType.code ft → ¬Canonical cfg ft c
  | .mask _ _ | .ext _ _ _ | .fdec _ _ | .frsF _ | .frbF _ _ | .fwrF _ _ | .drspF | .frsA _ | .frbA _ _ | .fwrA _ _
  | .drspA => False

/-- The start address is not in REGMAP (R236). -/
def badStartCause (cfg : Config) : Instr → Prop
  | .frsF a | .frbF a _ | .fwrF a _ | .frsA a | .frbA a _ | .fwrA a _ => ¬Named cfg a.toNat
  | .mask _ _ | .enc _ _ _ | .ins _ _ _ _ | .ext _ _ _ | .fdec _ _ | .fins _ _ _ | .drspF | .drspA => False

/-- The burst has length 0, or the framed-bus response list is empty (R237). -/
def badLengthCause (resp : List Byte) : Instr → Prop
  | .frbF _ n | .frbA _ n => n.toNat = 0
  | .drspF => resp = []
  | .mask _ _ | .enc _ _ _ | .ins _ _ _ _ | .ext _ _ _ | .fdec _ _ | .fins _ _ _ | .frsF _ | .fwrF _ _ | .frsA _
  | .fwrA _ _ | .drspA => False

/-- A later address of the burst is not in REGMAP (R236). -/
def badBurstCause (cfg : Config) : Instr → Prop
  | .frbF a n | .frbA a n => ¬BurstNamed cfg a n.toNat
  | .mask _ _ | .enc _ _ _ | .ins _ _ _ _ | .ext _ _ _ | .fdec _ _ | .fins _ _ _ | .frsF _ | .fwrF _ _ | .drspF
  | .frsA _ | .fwrA _ _ | .drspA => False

/-- The raw code of the field maps to no enumerator (R231). -/
def invalidCodeCause (cfg : Config) : Instr → Prop
  | .fdec f b => ∃ ft, f = FieldType.code ft ∧ (cfg.decTable ft).lookup ((b >>> ft.shift) &&& 3) = none
  | .mask _ _ | .enc _ _ _ | .ins _ _ _ _ | .ext _ _ _ | .fins _ _ _ | .frsF _ | .frbF _ _ | .fwrF _ _ | .drspF
  | .frsA _ | .frbA _ _ | .fwrA _ _ | .drspA => False

/-- The causes that can apply to a command, each with its status code, in the order of R242. -/
def causes (s : State) (resp : List Byte) (i : Instr) : List (Prop × BitVec 4) :=
  [(s.halted = true, 9), (badDescriptorCause i, 2), (valueRangeCause s.cfg i, 3), (badStartCause s.cfg i, 4),
   (badLengthCause resp i, 5), (badBurstCause s.cfg i, 4), (invalidCodeCause s.cfg i, 8)]

/-- The word spells a command with the property: it is the word of such a command (30_encoding.md R82 to R85). -/
def SpelledWith (w : Word) (p : Instr → Prop) : Prop := ∃ i, encode i = w ∧ p i

/-- The causes that can apply to a command word, each with its status code, in the order of R242: as for a command, with
`BadOp`, for a word that spells no row of the table, in second place (R233). -/
def wordCauses (s : State) (resp : List Byte) (w : Word) : List (Prop × BitVec 4) :=
  [(s.halted = true, 9), (∀ row ∈ opcodeRows, ¬Spells w row, 1), (SpelledWith w badDescriptorCause, 2),
   (SpelledWith w (valueRangeCause s.cfg), 3), (SpelledWith w (badStartCause s.cfg), 4),
   (SpelledWith w (badLengthCause resp), 5), (SpelledWith w (badBurstCause s.cfg), 4),
   (SpelledWith w (invalidCodeCause s.cfg), 8)]

/-- `code` is the status of the first cause that applies, or 0 if none does (60_exceptions.md R242). -/
def FirstCause : List (Prop × BitVec 4) → BitVec 4 → Prop
  | [], code => code = 0
  | (p, c) :: rest, code => (p ∧ code = c) ∨ (¬p ∧ FirstCause rest code)

/-! ## The invariant -/

/-- A descriptor the block may produce (30_encoding.md R88 to R93, R108): on the framed bus no slave identity, as many
bytes received as sent, at least two, a header whose low six bits are a named address; only a read has the multi bit, and
without it the frame is two bytes long; on the addressed bus SLAVE_ID, a sub-address whose low seven bits are a named
address, and either two bytes sent, marker clear and nothing read, or one byte sent and at least one read, one exactly
where the marker is clear. -/
def LegalExchange (cfg : Config) (id : Addr) (x : Exchange) : Prop :=
  match x.kind, x.tx with
  | .duplex, header :: rest =>
    x.id = none ∧ x.rxLen = rest.length + 1 ∧ rest ≠ []
    ∧ Named cfg (header.extractLsb' 0 6).toNat
    ∧ (header.extractLsb' 6 1 = 1 → header.extractLsb' 7 1 = cfg.rwRead)
    ∧ (header.extractLsb' 6 1 = 0 → rest.length = 1)
  | .writeRead, sub :: rest =>
    x.id = some id ∧ Named cfg (sub.extractLsb' 0 7).toNat
    ∧ ((rest.length = 1 ∧ x.rxLen = 0 ∧ sub.extractLsb' 7 1 = 0)
      ∨ (rest = [] ∧ 1 ≤ x.rxLen ∧ (sub.extractLsb' 7 1 = 0 → x.rxLen = 1)))
  | _, [] => False

/-- What stands on the result port (30_encoding.md R87, 60_exceptions.md R239): a status code that is produced; when it is
not 0 no result part; `invalid` with status 8 and only then; at most one part; a legal descriptor. -/
def LegalPort (cfg : Config) (id : Addr) (p : ResultPort) : Prop :=
  p.status ∈ [0, 1, 2, 3, 4, 5, 8, 9]
  ∧ (p.status ≠ 0 → p.res = none ∧ p.xd = none ∧ p.payload = none)
  ∧ (p.invalid.isSome = true ↔ p.status = 8)
  ∧ (p.res.isSome = true → p.xd = none ∧ p.payload = none)
  ∧ (p.xd.isSome = true → p.payload = none)
  ∧ ∀ x, p.xd = some x → LegalExchange cfg id x

/-- The invariant of the machine: a configuration within its constraints; SLAVE_ID one of the two (10_state.md R23); a
legal result port; and the block is halted exactly when the port shows InvalidCode or Halted (R22, R238). -/
structure Inv (s : State) : Prop where
  cfg_wf : s.cfg.wf = true
  slave : s.slaveId = s.cfg.slaveId0 ∨ s.slaveId = s.cfg.slaveId1
  port : LegalPort s.cfg s.slaveId s.port
  halt : s.halted = true ↔ s.port.status = 8 ∨ s.port.status = 9

/-- No reset is among the inputs. -/
def NoReset (l : List Input) : Prop := ∀ sa0, Input.reset sa0 ∉ l

/-! ## The storage premise (10_state.md R46, D22) -/

/-- The far side is the plain storage device with this register file, and it obeys the configured polarity of the
read/write bit. -/
def StoresIn (w : World) (d : StorageDevice) : Prop := w.far = .storage d ∧ d.readBit = w.block.cfg.rwRead

/-- The block is ready for commands, under a configuration within its constraints. -/
def Ready (w : World) : Prop := w.block.halted = false ∧ w.block.cfg.wf = true

/-- The bytes of `n` consecutive registers (20_memory.md R73): byte `i` is `DEV[addr + i]`. -/
def IsSlice (d : DeviceFile) (a : Addr) (n : Nat) (l : List Byte) : Prop :=
  l.length = n ∧ ∀ k, k < n → l[k]? = d.read (a.toNat + k)

end Sys2Proof.Machine
end

