-- ==== Sys2Proof/Certificates/Slice0/Obligations.lean ====
section
/-! DEFINITION. The statements for the provers. Each names the rule of spec/ it formalises; a statement that rests on a
choice of the model says so and names the log entry. Terms are those of Safety.lean. -/

open Sys2Proof Sys2Proof.Machine

/-! ## Reset, step, decode -/

/-- 10_state.md R40; R41 (SLAVE_ID sampled from the strap) and R42 (nothing is executed until the host presents a command)
in part. -/
def Obligations.ResetLeavesBlockReady : Prop :=
  State.reset.halted = false
  ∧ (∃ sa0, State.reset.slaveId = State.reset.cfg.strapId sa0)
  ∧ ∀ s : State, s.inputs = [] → step s = .next s

/-- 70_reset_and_hazards.md R260: the reset input clears `halted` and samples the strap; configuration and the inputs
after it stay. (What it does to the ports is the model's choice, log 6, and is not stated.) -/
def Obligations.ResetClearsHaltedAndSamplesStrap : Prop :=
  ∀ (s : State) (sa0 : Bool) (rest : List Input), s.inputs = .reset sa0 :: rest →
    ∃ t, step s = .next t ∧ t.halted = false
      ∧ t.slaveId = (if sa0 then s.cfg.slaveId1 else s.cfg.slaveId0)
      ∧ t.cfg = s.cfg ∧ t.inputs = rest

/-- A step on a presented word that spells `i`, on a block that is not halted, is `exec i` at the state with the input
taken and its response list on the response port; afterwards the response list is gone (30_encoding.md R80,
10_state.md R26; the response port's content is log 8). -/
def Obligations.StepRunsDecodedInstruction : Prop :=
  ∀ (s : State) (w : Word) (resp : List Byte) (rest : List Input) (i : Instr),
    s.inputs = .command w resp :: rest → s.halted = false → decode w = .ok i →
    ∃ t, exec i { s with inputs := rest, resp := resp } = .next t ∧ step s = .next { t with resp := [] }

/-- Words of 95_test_vectors.md decode to the commands they stand for. -/
def Obligations.SpecWordsDecode : Prop :=
  decode 0x12600000 = .ok (.mask 2 6)
  ∧ decode 0x22600200 = .ok (.enc 2 6 2)
  ∧ decode 0x3260023F = .ok (.ins 2 6 2 0x3F)
  ∧ decode 0x52000020 = .ok (.fdec 2 0x20)
  ∧ decode 0x90060028 = .ok (.frbF 0x28 6)
  ∧ decode 0xA8000F20 = .ok (.fwrA 0x20 0x0F)
  ∧ decode 0xB8000000 = .ok .drspA

/-- Decoding the word of a command gives the command back, with every operand at every value (30_encoding.md R82 to
R85). -/
def Obligations.DecodeOfEncodeIsSame : Prop := ∀ i : Instr, decode (encode i) = .ok i

/-- A word that spells a command is the word of that command: no command has a second encoding. -/
def Obligations.EncodeOfDecodeIsSame : Prop := ∀ (w : Word) (i : Instr), decode w = .ok i → encode i = w

/-- 30_encoding.md R100: a word spells the command of a row exactly when `w & mask = match`; the rows are pairwise
exclusive; a word matching no row spells nothing. -/
def Obligations.WordSpellsRowExactly : Prop :=
  (∀ (w : Word), ∀ row ∈ opcodeRows, (∃ i, decode w = .ok i ∧ i.mnemonic = row.mnemonic) ↔ Spells w row)
  ∧ (∀ (w : Word), ∀ row ∈ opcodeRows, ∀ row' ∈ opcodeRows, Spells w row → Spells w row' → row = row')
  ∧ (∀ (w : Word), (∀ row ∈ opcodeRows, ¬Spells w row) → ∃ e, decode w = .error e)

/-- 60_exceptions.md R233: on a block that is not halted, a word that matches no row of the table, in particular one with
a reserved `op` (30_encoding.md R101), is refused with status 1, and nothing else changes. -/
def Obligations.WordSpellingNothingIsBadOp : Prop :=
  (∀ (s : State) (w : Word) (resp : List Byte) (rest : List Input),
    s.inputs = .command w resp :: rest → s.halted = false → (∀ row ∈ opcodeRows, ¬Spells w row) →
    step s = .next { s with inputs := rest, resp := [], port := refusalPort 1 })
  ∧ ∀ w : Word, (w.extractLsb' 28 4).toNat ∈ [0x0, 0x7, 0xC, 0xD, 0xE, 0xF] → ∀ row ∈ opcodeRows, ¬Spells w row

/-! ## Outcomes of every command -/

/-- 60_exceptions.md R238: while `halted = 1` every command, and every word whatever it spells, gets status 9 and changes
nothing else. -/
def Obligations.HaltedRefusesEverything : Prop :=
  (∀ (i : Instr) (s : State), s.halted = true → RefusedWith i s 9)
  ∧ ∀ (s : State) (w : Word) (resp : List Byte) (rest : List Input),
      s.inputs = .command w resp :: rest → s.halted = true →
      step s = .next { s with inputs := rest, resp := [], port := refusalPort 9 }

/-- 60_exceptions.md R242: of the causes that apply, the one reported is the first in the order of the rule, and the status
is 0 exactly when none applies; for a command, and for a command word presented to the block, where `BadOp` is the cause
of the words that spell no command. -/
def Obligations.StatusIsFirstCause : Prop :=
  (∀ (i : Instr) (s : State), ∃ t, exec i s = .next t ∧ FirstCause (causes s s.resp i) t.port.status)
  ∧ ∀ (s : State) (w : Word) (resp : List Byte) (rest : List Input), s.inputs = .command w resp :: rest →
      ∃ t, step s = .next t ∧ FirstCause (wordCauses s resp w) t.port.status

/-- 40_bitfield_codec.md R127, for every command of the table: all a command changes is the result port, with the single
exception that FDEC sets `halted` when it raises InvalidCode. -/
def Obligations.CommandsChangeOnlyPortAndHalt : Prop :=
  ∀ (i : Instr) (s : State), ∃ t, exec i s = .next t
    ∧ t = { s with port := t.port, halted := t.halted }
    ∧ (t.halted ≠ s.halted → t.halted = true ∧ t.port.status = 8 ∧ ∃ f b, i = .fdec f b)

/-- 20_memory.md R62: what a command answers depends on the command, the response list, SLAVE_ID, the constants and
`halted` alone; issued twice it answers the same, but for InvalidCode, answered `Halted` the second time. -/
def Obligations.CommandsArePureFunctions : Prop :=
  (∀ (i : Instr) (s s' : State), s.cfg = s'.cfg → s.slaveId = s'.slaveId → s.resp = s'.resp → s.halted = s'.halted →
    ∃ t t', exec i s = .next t ∧ exec i s' = .next t' ∧ t.port = t'.port ∧ t.halted = t'.halted)
  ∧ ∀ (i : Instr) (s : State), ∃ t u, exec i s = .next t ∧ exec i t = .next u
      ∧ (t.port.status ≠ 8 → u.port = t.port) ∧ (t.port.status = 8 → u.port = refusalPort 9)

/-- 60_exceptions.md R248: after a refusal the next command is executed normally. -/
def Obligations.RefusalLeavesBlockUsable : Prop :=
  ∀ (s t : State) (w w' : Word) (resp resp' : List Byte),
    s.halted = false → step (present w resp s) = .next t → t.port.status ≠ 0 → t.port.status ≠ 8 →
    ∃ u u', step (present w' resp' t) = .next u ∧ step (present w' resp' s) = .next u'
      ∧ u.port = u'.port ∧ u.halted = u'.halted

/-! ## The codec commands -/

/-- 40_bitfield_codec.md R121: MASK of a well-formed descriptor has one-bits exactly at the places of the field. -/
def Obligations.MaskHasFieldBits : Prop :=
  ∀ (w s : BitVec 4) (st : State), st.halted = false → WfDesc w s →
    ∃ m, AnswersRes (.mask w s) st m ∧ m = BitVec.ofNat 8 ((2 ^ w.toNat - 1) * 2 ^ s.toNat)
      ∧ ∀ k, m.getLsbD k = true ↔ InField w s k

/-- 40_bitfield_codec.md R122: ENC puts the value's bits into the field and zeros elsewhere. -/
def Obligations.EncPlacesValueInField : Prop :=
  ∀ (w s : BitVec 4) (v : Byte) (st : State), st.halted = false → WfDesc w s → v.toNat < 2 ^ w.toNat →
    ∃ e, AnswersRes (.enc w s v) st e ∧ e.toNat = v.toNat * 2 ^ s.toNat
      ∧ ∀ k, e.getLsbD k = true → InField w s k

/-- 40_bitfield_codec.md R123: INS takes the bits of the field from the value and every other bit from the current byte. -/
def Obligations.InsReplacesFieldOnly : Prop :=
  ∀ (w s : BitVec 4) (v cur : Byte) (st : State), st.halted = false → WfDesc w s → v.toNat < 2 ^ w.toNat →
    ∃ r, AnswersRes (.ins w s v cur) st r
      ∧ (∀ k, InField w s k → r.getLsbD k = v.getLsbD (k - s.toNat))
      ∧ ∀ k, ¬InField w s k → r.getLsbD k = cur.getLsbD k

/-- 40_bitfield_codec.md R124: EXT is the unsigned value of the field, `byte / 2^shift mod 2^width`. -/
def Obligations.ExtTakesFieldValue : Prop :=
  ∀ (w s : BitVec 4) (b : Byte) (st : State), st.halted = false → WfDesc w s →
    ∃ x, AnswersRes (.ext w s b) st x ∧ x.toNat = b.toNat / 2 ^ s.toNat % 2 ^ w.toNat

/-- 40_bitfield_codec.md R125: FDEC of a mapped raw code is its canonical code. -/
def Obligations.FdecNamesEnumerator : Prop :=
  ∀ (ft : FieldType) (b c : Byte) (st : State), st.halted = false →
    (st.cfg.decTable ft).lookup ((b >>> ft.shift) &&& 3) = some c →
    AnswersRes (.fdec ft.code b) st c

/-- 60_exceptions.md R244: an unmapped raw code makes FDEC raise InvalidCode: `halted <- 1`, `status <- 8`, no value, and
nothing else changes; field type and raw code are recorded (R231). -/
def Obligations.FdecUnmappedCodeHalts : Prop :=
  ∀ (ft : FieldType) (b : Byte) (st : State), st.halted = false →
    (st.cfg.decTable ft).lookup ((b >>> ft.shift) &&& 3) = none →
    exec (.fdec ft.code b) st
      = .next { st with halted := true, port := invalidPort ft ((b >>> ft.shift) &&& 3) }

/-- 40_bitfield_codec.md R126: FINS of a canonical code equals INS with the field's descriptor (RATE 2, 6; BW and FS
2, 4). -/
def Obligations.FinsInsertsCanonicalCode : Prop :=
  ∀ (ft : FieldType) (c cur : Byte) (st : State), st.halted = false → Canonical st.cfg ft c →
    ∃ r, AnswersRes (.fins ft.code c cur) st r
      ∧ AnswersRes (.ins 2 (match ft with | .rate => 6 | .bw => 4 | .fs => 4) c cur) st r

/-! ## Laws of the codec -/

/-- 40_bitfield_codec.md R140. -/
def Obligations.EncodedValueExtractsBack : Prop :=
  ∀ (w s : BitVec 4) (v : Byte) (st : State), st.halted = false → WfDesc w s → v.toNat < 2 ^ w.toNat →
    ∃ m e, AnswersRes (.mask w s) st m ∧ AnswersRes (.enc w s v) st e ∧ AnswersRes (.ext w s e) st v
      ∧ e &&& ~~~m = 0 ∧ AnswersRes (.ins w s v 0x00) st e

/-- 40_bitfield_codec.md R141. -/
def Obligations.InsertIsConfinedToMask : Prop :=
  ∀ (w s : BitVec 4) (v cur : Byte) (st : State), st.halted = false → WfDesc w s → v.toNat < 2 ^ w.toNat →
    ∃ m e r, AnswersRes (.mask w s) st m ∧ AnswersRes (.enc w s v) st e ∧ AnswersRes (.ins w s v cur) st r
      ∧ r &&& ~~~m = cur &&& ~~~m ∧ r &&& m = e

/-- 40_bitfield_codec.md R142 (its two directions are the two ways to name the fields). -/
def Obligations.DisjointFieldsAreIsolated : Prop :=
  ∀ (wa sa wb sb : BitVec 4) (v cur ma mb : Byte) (st : State), v.toNat < 2 ^ wa.toNat →
    AnswersRes (.mask wa sa) st ma → AnswersRes (.mask wb sb) st mb → ma &&& mb = 0 →
    ∃ r x, AnswersRes (.ins wa sa v cur) st r ∧ AnswersRes (.ext wb sb r) st x ∧ AnswersRes (.ext wb sb cur) st x

/-- 40_bitfield_codec.md R143. -/
def Obligations.InsertedValueExtractsBack : Prop :=
  ∀ (w s : BitVec 4) (v cur : Byte) (st : State), st.halted = false → WfDesc w s → v.toNat < 2 ^ w.toNat →
    ∃ r, AnswersRes (.ins w s v cur) st r ∧ AnswersRes (.ext w s r) st v

/-- 40_bitfield_codec.md R144. -/
def Obligations.ReinsertionChangesNothing : Prop :=
  (∀ (w s : BitVec 4) (cur : Byte) (st : State), st.halted = false → WfDesc w s →
    ∃ x, AnswersRes (.ext w s cur) st x ∧ AnswersRes (.ins w s x cur) st cur)
  ∧ ∀ (w s : BitVec 4) (u v cur : Byte) (st : State), st.halted = false → WfDesc w s →
      u.toNat < 2 ^ w.toNat → v.toNat < 2 ^ w.toNat →
      ∃ r r', AnswersRes (.ins w s u cur) st r ∧ AnswersRes (.ins w s v r) st r' ∧ AnswersRes (.ins w s v cur) st r'

/-- 40_bitfield_codec.md R146. -/
def Obligations.DisjointInsertsCommute : Prop :=
  ∀ (wa sa wb sb : BitVec 4) (va vb cur ma mb : Byte) (st : State),
    va.toNat < 2 ^ wa.toNat → vb.toNat < 2 ^ wb.toNat →
    AnswersRes (.mask wa sa) st ma → AnswersRes (.mask wb sb) st mb → ma &&& mb = 0 →
    ∃ a b r, AnswersRes (.ins wa sa va cur) st a ∧ AnswersRes (.ins wb sb vb cur) st b
      ∧ AnswersRes (.ins wa sa va b) st r ∧ AnswersRes (.ins wb sb vb a) st r

/-- 40_bitfield_codec.md R147. -/
def Obligations.FullWidthFieldIsWholeByte : Prop :=
  ∀ (v cur : Byte) (st : State), st.halted = false →
    AnswersRes (.mask 8 0) st 0xFF ∧ AnswersRes (.enc 8 0 v) st v ∧ AnswersRes (.ins 8 0 v cur) st v
      ∧ AnswersRes (.ext 8 0 cur) st cur

/-- 40_bitfield_codec.md R148: a canonical code inserted decodes back; and the full-scale alias does not survive a get
followed by a set. (That a canonical code decodes to itself is part of `Config.wf`, log 10.) -/
def Obligations.TypedRoundTrip : Prop :=
  (∀ (ft : FieldType) (c cur : Byte) (st : State), st.halted = false → st.cfg.wf = true → Canonical st.cfg ft c →
    ∃ r, AnswersRes (.fins ft.code c cur) st r ∧ AnswersRes (.fdec ft.code r) st c)
  ∧ ∀ (b : Byte) (st : State), st.halted = false → (b >>> 4) &&& 3 = 2 →
      AnswersRes (.fdec FieldType.fs.code b) st 3
      ∧ ∃ r, AnswersRes (.fins FieldType.fs.code 3 b) st r ∧ (r >>> 4) &&& 3 = 3 ∧ r ≠ b

/-- 30_encoding.md R107: in the FS field raw code 2 means `Dps2000` like its documented code 3, on decode only; FINS refuses
2 and writes 3 for `Dps2000`. -/
def Obligations.AliasIsAcceptedOnlyOnDecode : Prop :=
  ∀ (b : Byte) (st : State), st.halted = false →
    ((b >>> 4) &&& 3 = 2 ∨ (b >>> 4) &&& 3 = 3 → AnswersRes (.fdec FieldType.fs.code b) st 3)
    ∧ RefusedWith (.fins FieldType.fs.code 2 b) st 3
    ∧ ∃ r, AnswersRes (.fins FieldType.fs.code 3 b) st r ∧ (r >>> 4) &&& 3 = 3

/-! ## Refusals of operands -/

/-- 30_encoding.md R103: an illegal descriptor is refused with BadDescriptor by every format D command. -/
def Obligations.IllegalDescriptorIsRefused : Prop :=
  ∀ (w s : BitVec 4) (v b : Byte) (st : State), st.halted = false →
    (w.toNat = 0 ∨ 8 < w.toNat ∨ 7 < s.toNat ∨ 8 < s.toNat + w.toNat) →
    RefusedWith (.mask w s) st 2 ∧ RefusedWith (.enc w s v) st 2 ∧ RefusedWith (.ins w s v b) st 2
      ∧ RefusedWith (.ext w s b) st 2

/-- 30_encoding.md R102: a reserved field type is refused with BadDescriptor. -/
def Obligations.ReservedFieldTypeIsRefused : Prop :=
  ∀ (f : BitVec 4) (c b : Byte) (st : State), st.halted = false → 3 ≤ f.toNat →
    RefusedWith (.fdec f b) st 2 ∧ RefusedWith (.fins f c b) st 2

/-- 30_encoding.md R104: a value that does not fit, and a code that is not canonical, are refused with ValueRange. -/
def Obligations.IllegalValueIsRefused : Prop :=
  (∀ (w s : BitVec 4) (v b : Byte) (st : State), st.halted = false → WfDesc w s → 2 ^ w.toNat ≤ v.toNat →
    RefusedWith (.enc w s v) st 3 ∧ RefusedWith (.ins w s v b) st 3)
  ∧ ∀ (ft : FieldType) (c b : Byte) (st : State), st.halted = false → ¬Canonical st.cfg ft c →
      RefusedWith (.fins ft.code c b) st 3

/-- 30_encoding.md R105 and 20_memory.md R64: an address outside REGMAP, and a burst that leaves REGMAP, are refused with
BadAddress on both buses; and under any configuration within its constraints every address above 0x38, in particular
every address of 0x40 and above, is outside. -/
def Obligations.UnnamedAddressIsRefused : Prop :=
  (∀ (a : Addr) (n v : Byte) (st : State), st.halted = false → ¬Named st.cfg a.toNat →
    RefusedWith (.frsF a) st 4 ∧ RefusedWith (.frbF a n) st 4 ∧ RefusedWith (.fwrF a v) st 4
      ∧ RefusedWith (.frsA a) st 4 ∧ RefusedWith (.frbA a n) st 4 ∧ RefusedWith (.fwrA a v) st 4)
  ∧ (∀ (a : Addr) (n : Byte) (st : State), st.halted = false → ¬BurstNamed st.cfg a n.toNat →
      RefusedWith (.frbF a n) st 4 ∧ RefusedWith (.frbA a n) st 4)
  ∧ ∀ (cfg : Config) (a : Nat), cfg.wf = true → 0x38 < a → ¬Named cfg a

/-- 30_encoding.md R106: a burst of length 0 (from a named address, which is checked first, R242) and DRSP.F on the empty
list are refused with BadLength. -/
def Obligations.IllegalLengthIsRefused : Prop :=
  (∀ (a : Addr) (st : State), st.halted = false → Named st.cfg a.toNat →
    RefusedWith (.frbF a 0) st 5 ∧ RefusedWith (.frbA a 0) st 5)
  ∧ ∀ st : State, st.halted = false → st.resp = [] → RefusedWith .drspF st 5

/-! ## The framer commands -/

/-- 41_framer_framed.md R151; the header is `0x80 | addr` where RW_READ is 1 (D10). -/
def Obligations.FramedSingleReadFrame : Prop :=
  ∀ (a : Addr) (st : State), st.halted = false → Named st.cfg a.toNat →
    ∃ h, AnswersXd (.frsF a) st ⟨.duplex, none, [h, st.cfg.fill], 2⟩
      ∧ h = (st.cfg.rwRead.setWidth 8 <<< 7) ||| a.setWidth 8
      ∧ (st.cfg.rwRead = 1 → h = 0x80 ||| a.setWidth 8)

/-- 41_framer_framed.md R152; the header is `0xC0 | addr` where RW_READ is 1 (D10). -/
def Obligations.FramedBurstReadFrame : Prop :=
  ∀ (a : Addr) (n : Byte) (st : State), st.halted = false → 1 ≤ n.toNat → BurstNamed st.cfg a n.toNat →
    ∃ h, AnswersXd (.frbF a n) st ⟨.duplex, none, h :: List.replicate n.toNat st.cfg.fill, n.toNat + 1⟩
      ∧ h = (st.cfg.rwRead.setWidth 8 <<< 7) ||| 0x40 ||| a.setWidth 8
      ∧ (st.cfg.rwRead = 1 → h = 0xC0 ||| a.setWidth 8)

/-- 41_framer_framed.md R153; the header is numerically the address where RW_READ is 1 (D10, D33). That bit 7 is the
complement of RW_READ under either polarity is the model's reading (log 12). -/
def Obligations.FramedSingleWriteFrame : Prop :=
  ∀ (a : Addr) (v : Byte) (st : State), st.halted = false → Named st.cfg a.toNat →
    ∃ h, AnswersXd (.fwrF a v) st ⟨.duplex, none, [h, v], 2⟩
      ∧ h = ((~~~st.cfg.rwRead).setWidth 8 <<< 7) ||| a.setWidth 8
      ∧ (st.cfg.rwRead = 1 → h = a.setWidth 8)

/-- 41_framer_framed.md R155: in every header byte the block produces, bit 7 is exactly the read/write bit and bit 6
exactly the single/multi bit; no address bit reaches them. That the read/write bit of a write is the complement of RW_READ
under either polarity is the model's reading of D33 and V7 (log 12). -/
def Obligations.HeaderBitsAreNotAddressBits : Prop :=
  ∀ (i : Instr) (a : Addr) (st t : State) (x : Exchange) (h : Byte) (rest : List Byte),
    st.halted = false → st.cfg.wf = true → exec i st = .next t → t.port.xd = some x → x.kind = .duplex →
    x.tx = h :: rest →
    (i = .frsF a → h.extractLsb' 7 1 = st.cfg.rwRead ∧ h.extractLsb' 6 1 = 0 ∧ h.extractLsb' 0 6 = a.setWidth 6)
    ∧ (∀ n, i = .frbF a n →
        h.extractLsb' 7 1 = st.cfg.rwRead ∧ h.extractLsb' 6 1 = 1 ∧ h.extractLsb' 0 6 = a.setWidth 6)
    ∧ (∀ v, i = .fwrF a v →
        h.extractLsb' 7 1 = ~~~st.cfg.rwRead ∧ h.extractLsb' 6 1 = 0 ∧ h.extractLsb' 0 6 = a.setWidth 6)

/-- 41_framer_framed.md R154 and 10_state.md R38: the dummy byte is discarded whatever its value and influences nothing. -/
def Obligations.FramedResponseDropsDummy : Prop :=
  ∀ (dummy : Byte) (l : List Byte) (st : State), st.halted = false →
    AnswersPayload .drspF { st with resp := dummy :: l } l

/-- 42_framer_addressed.md R171. -/
def Obligations.AddressedSingleReadFrame : Prop :=
  ∀ (a : Addr) (st : State), st.halted = false → Named st.cfg a.toNat →
    AnswersXd (.frsA a) st ⟨.writeRead, some st.slaveId, [a.setWidth 8], 1⟩

/-- 42_framer_addressed.md R172. -/
def Obligations.AddressedBurstReadFrame : Prop :=
  ∀ (a : Addr) (n : Byte) (st : State), st.halted = false → 1 ≤ n.toNat → BurstNamed st.cfg a n.toNat →
    AnswersXd (.frbA a n) st ⟨.writeRead, some st.slaveId, [0x80 ||| a.setWidth 8], n.toNat⟩

/-- 42_framer_addressed.md R173. -/
def Obligations.AddressedSingleWriteFrame : Prop :=
  ∀ (a : Addr) (v : Byte) (st : State), st.halted = false → Named st.cfg a.toNat →
    AnswersXd (.fwrA a v) st ⟨.writeRead, some st.slaveId, [a.setWidth 8, v], 0⟩

/-- 42_framer_addressed.md R174: the identity on lists, the empty list included. -/
def Obligations.AddressedResponseIsPayload : Prop :=
  ∀ st : State, st.halted = false → AnswersPayload .drspA st st.resp

/-! ## The whole machine -/

/-- The invariant holds at reset. (The values at reset are those of logs 3, 4 and 5.) -/
def Obligations.InvariantHoldsAtReset : Prop := Inv State.reset

/-- Every step keeps the invariant: configuration within its constraints, SLAVE_ID one of the two, a legal result port
with a legal exchange descriptor, halted exactly with status 8 or 9. (That reset clears the result port is log 6.) -/
def Obligations.StepKeepsInvariant : Prop := ∀ s t : State, Inv s → step s = .next t → Inv t

/-- 60_exceptions.md R247 and R249, 70_reset_and_hazards.md R281: once halted, through any number of steps without reset,
the block stays halted, and every command taken is answered `Halted`. -/
def Obligations.HaltIsPermanentUntilReset : Prop :=
  ∀ (n : Nat) (s : State), s.halted = true → NoReset s.inputs →
    ∃ t, Host.Core.run Sys2Proof.core n s = .next t ∧ t.halted = true
      ∧ (0 < n → s.inputs ≠ [] → t.port = refusalPort 9)

/-- 40_bitfield_codec.md R125, corner cases: with tables that map every raw code, as the default tables do, no sequence of
inputs whatever halts the block. -/
def Obligations.TotalTablesNeverHalt : Prop :=
  Config.standard.decTotal = true
  ∧ ∀ (n : Nat) (s : State), s.cfg.decTotal = true → s.halted = false →
      ∃ t, Host.Core.run Sys2Proof.core n s = .next t ∧ t.halted = false

/-! ## The host's primitives and sequences, on the storage premise (10_state.md R46, D22)

The device is the named premise of the spec, never part of the block. Everything about it is the model's reading of
R37, R38 and R156 (log 15). -/

/-- 20_memory.md R72: a single read returns the one byte of the addressed register, in one exchange, on either bus,
whatever the dummy byte, and changes no register. -/
def Obligations.SingleReadReturnsRegister : Prop :=
  ∀ (t : Bus) (a : Addr) (w : World) (d : StorageDevice), Ready w → StoresIn w d → Named w.block.cfg a.toNat →
    ∃ l w', memReadSingle t a w = .done l w' ∧ IsSlice d.file a 1 l ∧ w'.far = w.far
      ∧ w'.wire.length = w.wire.length + 1 ∧ w'.block.halted = false

/-- 20_memory.md R73: a burst read returns `n` consecutive registers in ascending order, in one exchange, on either bus,
whatever the dummy byte, and changes no register. -/
def Obligations.BurstReadReturnsRegisters : Prop :=
  ∀ (t : Bus) (a : Addr) (n : Byte) (w : World) (d : StorageDevice), Ready w → StoresIn w d →
    1 ≤ n.toNat → BurstNamed w.block.cfg a n.toNat →
    ∃ l w', memReadBurst t a n w = .done l w' ∧ IsSlice d.file a n.toNat l ∧ w'.far = w.far
      ∧ w'.wire.length = w.wire.length + 1 ∧ w'.block.halted = false

/-- 20_memory.md R74: a write stores the byte in the addressed register and nowhere else, in one exchange. -/
def Obligations.WriteStoresRegister : Prop :=
  ∀ (t : Bus) (a : Addr) (v : Byte) (w : World) (d : StorageDevice), Ready w → StoresIn w d →
    Named w.block.cfg a.toNat →
    ∃ w' d', memWrite t a v w = .done () w' ∧ w'.far = .storage d' ∧ d'.file.read a.toNat = some v
      ∧ (∀ b, b ≠ a.toNat → d'.file.read b = d.file.read b)
      ∧ w'.wire.length = w.wire.length + 1 ∧ w'.block.halted = false

/-- 20_memory.md R70 and 43_host_sequences.md R198 (the source's testable property 2, on the device): setting one field to
a canonical code and then reading another returns what it returned before, and the set field reads as it was set (which
rests on a canonical code decoding to itself, part of `Config.wf`: log 10). -/
def Obligations.SetterKeepsOtherFields : Prop :=
  ∀ (t : Bus) (ft other : FieldType) (c v : Byte) (w w₁ : World) (d : StorageDevice),
    Ready w → StoresIn w d → ft ≠ other → Canonical w.block.cfg ft c → getField t other w = .done v w₁ →
    ∃ w₂ w₃ w₄, setField t ft c w₁ = .done () w₂ ∧ getField t other w₂ = .done v w₃
      ∧ getField t ft w₃ = .done c w₄

/-- 60_exceptions.md R246, 43_host_sequences.md R190: a setter whose read fails stops with the transport's error, unchanged;
the one exchange handed to the transport is the read, the write is never issued, and the block is not halted. -/
def Obligations.FailedReadStopsSetter : Prop :=
  ∀ (t : Bus) (ft : FieldType) (c : Byte) (w : World) (e : TransportError) (rest : List Answer) (h : Addr),
    Ready w → w.far = .oracle (.error e :: rest) → w.block.cfg.hostReg ft = some h →
    ∃ w' x, setField t ft c w = .stopped (.transportError e) w' ∧ w'.far = .oracle rest
      ∧ w'.wire = w.wire ++ [x] ∧ AnswersXd (.frs t h) { w.block with resp := [] } x ∧ w'.block.halted = false

/-- 10_state.md R44, R34, 43_host_sequences.md R192: after `construct` the first control register holds `0b0000_1111`,
whatever it held before: RATE and BW 0, power and the three axes enabled (places of the enables: log 25); one exchange, a
write; no other register changes. On the addressed bus an identity that the strap can select is SLAVE_ID afterwards; any
other is turned away, with no exchange (log 16); with none given SLAVE_ID stays (log 16); the framed bus has none and keeps
SLAVE_ID. -/
def Obligations.ConstructOverwritesFirstControl : Prop :=
  (∀ (t : Bus) (identity : Option Addr) (w : World) (d : StorageDevice) (a : Addr), Ready w → StoresIn w d →
    w.block.cfg.addrOf .ctrlReg1 = some a →
    (∀ id, t = .addressed → identity = some id → id = w.block.cfg.slaveId0 ∨ id = w.block.cfg.slaveId1) →
    ∃ w' d' b, construct t identity w = .done () w' ∧ w'.far = .storage d'
      ∧ d'.file.read a.toNat = some b ∧ b = 0b00001111#8 ∧ decodeFirstControl b = ⟨0, 0, true, true, true, true⟩
      ∧ (∀ r, r ≠ a.toNat → d'.file.read r = d.file.read r)
      ∧ w'.wire.length = w.wire.length + 1
      ∧ w'.block.slaveId = (match t, identity with | .addressed, some id => id | _, _ => w.block.slaveId))
  ∧ ∀ (id : Addr) (w : World), id ≠ w.block.cfg.slaveId0 → id ≠ w.block.cfg.slaveId1 →
      construct .addressed (some id) w = .stopped .noSuchIdentity w

/-- 43_host_sequences.md R195, R212: `read_gyro` returns the three signed little-endian values held in the six axis
registers, on either bus. -/
def Obligations.ReadGyroReturnsAxes : Prop :=
  ∀ (t : Bus) (w : World) (d : StorageDevice) (a : Addr) (xl xh yl yh zl zh : Byte), Ready w → StoresIn w d →
    w.block.cfg.addrOf .outXL = some a →
    d.file.read a.toNat = some xl → d.file.read (a.toNat + 1) = some xh →
    d.file.read (a.toNat + 2) = some yl → d.file.read (a.toNat + 3) = some yh →
    d.file.read (a.toNat + 4) = some zl → d.file.read (a.toNat + 5) = some zh →
    ∃ w', readGyro t w = .done ⟨(xh ++ xl).toInt, (yh ++ yl).toInt, (zh ++ zl).toInt⟩ w' ∧ w'.far = w.far

/-- 43_host_sequences.md R196 (conflict C6): `read_all` is one burst of `AXIS_OFF + 6` bytes from the temperature register
and returns the signed temperature byte and the three axis values, on either bus. -/
def Obligations.ReadAllReturnsTemperatureAndAxes : Prop :=
  ∀ (t : Bus) (w : World) (d : StorageDevice) (a x : Addr) (b xl xh yl yh zl zh : Byte), Ready w → StoresIn w d →
    w.block.cfg.addrOf .outTemp = some a → w.block.cfg.addrOf .outXL = some x → a.toNat < x.toNat →
    BurstNamed w.block.cfg a (x.toNat - a.toNat + 6) →
    d.file.read a.toNat = some b →
    d.file.read x.toNat = some xl → d.file.read (x.toNat + 1) = some xh →
    d.file.read (x.toNat + 2) = some yl → d.file.read (x.toNat + 3) = some yh →
    d.file.read (x.toNat + 4) = some zl → d.file.read (x.toNat + 5) = some zh →
    ∃ w', readAll t w = .done (b.toInt, ⟨(xh ++ xl).toInt, (yh ++ yl).toInt, (zh ++ zl).toInt⟩) w'
      ∧ w'.far = w.far ∧ w'.wire.length = w.wire.length + 1

/-! ## Host arithmetic -/

/-- 43_host_sequences.md R211: an axis value is the signed 16-bit reading of its two bytes. -/
def Obligations.AxisIsSignedLittleEndian : Prop :=
  ∀ lo hi : Byte,
    axis lo hi = (lo.toNat : Int) + 256 * hi.toNat - (if hi.toNat < 128 then 0 else 65536)
    ∧ -32768 ≤ axis lo hi ∧ axis lo hi ≤ 32767

/-- 43_host_sequences.md R214, R215: `T = 25 - raw`, between -102 and 153, with no wrap. -/
def Obligations.TemperatureDoesNotWrap : Prop :=
  ∀ b : Byte,
    celsius (rawTemperature b) = 25 - ((b.toNat : Int) - (if b.toNat < 128 then 0 else 256))
    ∧ -102 ≤ celsius (rawTemperature b) ∧ celsius (rawTemperature b) ≤ 153

/-- 43_host_sequences.md R210, R194 and 10_state.md R33: each flag is its bit of the status byte, `overrun` bit 7 and `x_new`
bit 0, and is what `EXT 1, k, s` answers for that bit, read as a boolean. The eight commands leave the far side and the
exchanges alone. `read_status` is the single read of the status register, then that decode: where the read ends, it ends
with the flags of the byte, with no further exchange, and the result port shows the last command's answer. That the host
issues the eight commands, so that the last answer stands on the port, is the model's reading of program P5 (log 24). -/
def Obligations.StatusFlagsAreBits : Prop :=
  (∀ (l : StatusLayout) (s : Byte),
    decodeStatus l s
      = ⟨s.getLsbD 7, s.getLsbD l.zOverrun, s.getLsbD l.yOverrun, s.getLsbD l.xOverrun,
         s.getLsbD l.newData, s.getLsbD l.zNew, s.getLsbD l.yNew, s.getLsbD 0⟩)
  ∧ (∀ (k : Fin 8) (s : Byte) (st : State), st.halted = false →
      AnswersRes (.ext 1 (BitVec.ofNat 4 k.val) s) st (if s.getLsbD k then 1 else 0))
  ∧ (∀ (l : StatusLayout) (s : Byte) (w : World), w.block.halted = false →
      ∃ w', readFlags l s w = .done (decodeStatus l s) w' ∧ w'.far = w.far ∧ w'.wire = w.wire
        ∧ w'.block.halted = false)
  ∧ ∀ (t : Bus) (a : Addr) (s : Byte) (w w₁ : World), w.block.cfg.addrOf .statusReg = some a →
      readByte t a w = .done s w₁ →
      ∃ w', readStatus t w = .done (decodeStatus w.block.cfg.statusBits s) w' ∧ w'.far = w₁.far ∧ w'.wire = w₁.wire
        ∧ w'.block.port = resPort (if s.getLsbD 0 then 1 else 0)

/-- 43_host_sequences.md R216, R217, R218: degrees are count times 0.00875, 0.0175 or 0.07; radians are degrees times
π/180, kept as an exact multiple of π. -/
def Obligations.DegreesAreExactMultiples : Prop :=
  (∀ count : Int,
    degrees .dps250 count * 100000 = 875 * count ∧ degrees .dps500 count * 10000 = 175 * count
    ∧ degrees .dps2000 count * 100 = 7 * count)
  ∧ ∀ deg : Rat, (radians deg).timesPi * 180 = deg

/-! ## The boundary to the transport -/

/-- 00_scope.md R17, 20_memory.md R59, R72, R73, 43_host_sequences.md R191: whatever is on the far side, an exchange that ends
with bytes ends with as many as were shifted out or were to be read, and is one exchange; a single read that ends returns
exactly one byte, a burst read exactly `n`; and a list of another length stops the sequence (log 22). -/
def Obligations.ExchangesReturnAllTheirBytes : Prop :=
  (∀ (x : Exchange) (w w' : World) (rx : List Byte), xfer x w = .done rx w' →
    rx.length = (match x.kind with | .duplex => x.tx.length | .writeRead => x.rxLen) ∧ w'.wire = w.wire ++ [x])
  ∧ (∀ (t : Bus) (a : Addr) (w w' : World) (l : List Byte), memReadSingle t a w = .done l w' →
      l.length = 1 ∧ w'.wire.length = w.wire.length + 1)
  ∧ (∀ (t : Bus) (a : Addr) (n : Byte) (w w' : World) (l : List Byte), memReadBurst t a n w = .done l w' →
      l.length = n.toNat ∧ w'.wire.length = w.wire.length + 1)
  ∧ ∀ (x : Exchange) (w : World) (rx : List Byte) (rest : List Answer), w.far = .oracle (.bytes rx :: rest) →
      rx.length ≠ (match x.kind with | .duplex => x.tx.length | .writeRead => x.rxLen) →
      xfer x w = .stopped .wrongLength { w with far := .oracle rest, wire := w.wire ++ [x] }
end

