-- ==== Sys2Proof/Laws/State.lean ====
section
/-! SUPPORT. One lemma per field per update of State, so that no later proof unfolds a record update. -/

namespace Sys2Proof.Machine

variable (s : State) (r : Reason) (e : InvalidCode) (sa0 : Bool) (w : Word) (l : List Byte)

@[simp] theorem refuse_cfg : (refuse r s).cfg = s.cfg := rfl
@[simp] theorem refuse_slaveId : (refuse r s).slaveId = s.slaveId := rfl
@[simp] theorem refuse_halted : (refuse r s).halted = s.halted := rfl
@[simp] theorem refuse_resp : (refuse r s).resp = s.resp := rfl
@[simp] theorem refuse_inputs : (refuse r s).inputs = s.inputs := rfl
@[simp] theorem refuse_port : (refuse r s).port = ⟨r.status, none, none, none, none⟩ := rfl

@[simp] theorem raiseInvalidCode_cfg : (raiseInvalidCode e s).cfg = s.cfg := rfl
@[simp] theorem raiseInvalidCode_slaveId : (raiseInvalidCode e s).slaveId = s.slaveId := rfl
@[simp] theorem raiseInvalidCode_halted : (raiseInvalidCode e s).halted = true := rfl
@[simp] theorem raiseInvalidCode_resp : (raiseInvalidCode e s).resp = s.resp := rfl
@[simp] theorem raiseInvalidCode_inputs : (raiseInvalidCode e s).inputs = s.inputs := rfl
@[simp] theorem raiseInvalidCode_port : (raiseInvalidCode e s).port = ⟨8, none, none, none, some e⟩ := rfl

@[simp] theorem resetBlock_cfg : (resetBlock sa0 s).cfg = s.cfg := rfl
@[simp] theorem resetBlock_slaveId : (resetBlock sa0 s).slaveId = s.cfg.strapId sa0 := rfl
@[simp] theorem resetBlock_halted : (resetBlock sa0 s).halted = false := rfl
@[simp] theorem resetBlock_resp : (resetBlock sa0 s).resp = [] := rfl
@[simp] theorem resetBlock_inputs : (resetBlock sa0 s).inputs = s.inputs := rfl
@[simp] theorem resetBlock_port : (resetBlock sa0 s).port = .idle := rfl

@[simp] theorem present_cfg : (present w l s).cfg = s.cfg := rfl
@[simp] theorem present_slaveId : (present w l s).slaveId = s.slaveId := rfl
@[simp] theorem present_halted : (present w l s).halted = s.halted := rfl
@[simp] theorem present_resp : (present w l s).resp = s.resp := rfl
@[simp] theorem present_port : (present w l s).port = s.port := rfl
@[simp] theorem present_inputs : (present w l s).inputs = .command w l :: s.inputs := rfl

@[simp] theorem assertReset_cfg : (assertReset sa0 s).cfg = s.cfg := rfl
@[simp] theorem assertReset_slaveId : (assertReset sa0 s).slaveId = s.slaveId := rfl
@[simp] theorem assertReset_halted : (assertReset sa0 s).halted = s.halted := rfl
@[simp] theorem assertReset_resp : (assertReset sa0 s).resp = s.resp := rfl
@[simp] theorem assertReset_port : (assertReset sa0 s).port = s.port := rfl
@[simp] theorem assertReset_inputs : (assertReset sa0 s).inputs = .reset sa0 :: s.inputs := rfl

@[simp] theorem report_cfg (o : CmdOutcome) : (report o s).cfg = s.cfg := by cases o <;> rfl
@[simp] theorem report_slaveId (o : CmdOutcome) : (report o s).slaveId = s.slaveId := by cases o <;> rfl
@[simp] theorem report_resp (o : CmdOutcome) : (report o s).resp = s.resp := by cases o <;> rfl
@[simp] theorem report_inputs (o : CmdOutcome) : (report o s).inputs = s.inputs := by cases o <;> rfl

end Sys2Proof.Machine
end

