-- ==== Sys2Proof/Laws/Exec.lean ====
section
/-! SUPPORT. Everything a command and a step can do, said once. -/

namespace Sys2Proof.Machine

/-- The outcome of a command that is not turned away by `Halted`, as one function of the command. -/
def cmdOutcome (s : State) : Instr → CmdOutcome
  | .mask w sh => maskOutcome w sh
  | .enc w sh v => encOutcome w sh v
  | .ins w sh v b => insOutcome w sh v b
  | .ext w sh b => extOutcome w sh b
  | .fdec f b => fdecOutcome s.cfg f b
  | .fins f c b => finsOutcome s.cfg f c b
  | .frsF a => frsFOutcome s.cfg a
  | .frbF a n => frbFOutcome s.cfg a n
  | .fwrF a v => fwrFOutcome s.cfg a v
  | .drspF => drspFOutcome s.resp
  | .frsA a => frsAOutcome s.cfg s.slaveId a
  | .frbA a n => frbAOutcome s.cfg s.slaveId a n
  | .fwrA a v => fwrAOutcome s.cfg s.slaveId a v
  | .drspA => drspAOutcome s.resp

theorem exec_eq_finish (i : Instr) (s : State) : exec i s = finish (cmdOutcome s i) s := by
  cases i <;> rfl

theorem exec_of_halted {i : Instr} {s : State} (h : s.halted = true) : exec i s = .next (refuse .halted s) := by
  rw [exec_eq_finish, finish, if_pos h]

theorem exec_of_not_halted {i : Instr} {s : State} (h : s.halted = false) :
    exec i s = .next (report (cmdOutcome s i) s) := by
  rw [exec_eq_finish, finish, if_neg (by simp [h])]

/-- A command never stops the machine. -/
theorem exec_next (i : Instr) (s : State) : ∃ t, exec i s = .next t := by
  rw [exec_eq_finish]
  exact ⟨_, rfl⟩

/-- Only FDEC raises InvalidCode (60_exceptions.md R231). -/
theorem raises_only_fdec {i : Instr} {s : State} {e : InvalidCode} (h : cmdOutcome s i = .raise e) :
    ∃ f b, i = .fdec f b := by
  cases i <;>
    first
    | exact ⟨_, _, rfl⟩
    | (exfalso
       simp only [cmdOutcome, maskOutcome, encOutcome, insOutcome, extOutcome, finsOutcome, frsFOutcome, frbFOutcome,
        fwrFOutcome, drspFOutcome, frsAOutcome, frbAOutcome, fwrAOutcome, drspAOutcome, withDesc, withValue, withField,
        withAddress, withBurst] at h
       repeat' split at h
       all_goals cases h)

/-- What a command leaves alone: everything but the result port and `halted`. -/
theorem exec_frame {i : Instr} {s t : State} (h : exec i s = .next t) :
    t.cfg = s.cfg ∧ t.slaveId = s.slaveId ∧ t.resp = s.resp ∧ t.inputs = s.inputs := by
  cases hs : s.halted
  · rw [exec_of_not_halted hs] at h
    cases h
    simp
  · rw [exec_of_halted hs] at h
    cases h
    simp

/-- A word that spells a command, on a block that is not halted. -/
theorem runWord_ok {w : Word} {s : State} {i : Instr} (hs : s.halted = false) (hd : decode w = .ok i) :
    runWord w s = .next (report (cmdOutcome s i) s) := by
  simp [runWord, hs, hd, exec_of_not_halted hs]

/-- A word that spells no command, on a block that is not halted. -/
theorem runWord_error {w : Word} {s : State} {e : DecodeError} (hs : s.halted = false) (hd : decode w = .error e) :
    runWord w s = .next (refuse .badOp s) := by
  simp [runWord, hs, hd]

/-- Any word, on a halted block. -/
theorem runWord_halted {w : Word} {s : State} (hs : s.halted = true) : runWord w s = .next (refuse .halted s) := by
  simp [runWord, hs]

/-- Everything a command word does: one of these three. -/
theorem runWord_cases (w : Word) (s : State) :
    (s.halted = true ∧ runWord w s = .next (refuse .halted s))
    ∨ (s.halted = false ∧ (∃ e, decode w = .error e) ∧ runWord w s = .next (refuse .badOp s))
    ∨ (s.halted = false ∧ ∃ i, decode w = .ok i ∧ runWord w s = .next (report (cmdOutcome s i) s)) := by
  cases hs : s.halted
  · cases hd : decode w with
    | error e => exact .inr (.inl ⟨rfl, ⟨e, rfl⟩, runWord_error hs hd⟩)
    | ok i => exact .inr (.inr ⟨rfl, i, rfl, runWord_ok hs hd⟩)
  · exact .inl ⟨rfl, runWord_halted hs⟩

/-- Everything a step does, by its next input. -/
theorem step_cases {s t : State} (h : step s = .next t) :
    (s.inputs = [] ∧ t = s)
    ∨ (∃ sa0 rest, s.inputs = .reset sa0 :: rest ∧ t = resetBlock sa0 { s with inputs := rest })
    ∨ (∃ w l rest, s.inputs = .command w l :: rest ∧
        ∃ u, runWord w { s with inputs := rest, resp := l } = .next u ∧ t = { u with resp := [] }) := by
  unfold step takeInput at h
  split at h
  · exact .inl ⟨‹_›, by cases h; rfl⟩
  · exact .inr (.inl ⟨_, _, ‹_›, by cases h; rfl⟩)
  · rename_i w l rest hin
    obtain ⟨-, hr⟩ | ⟨-, -, hr⟩ | ⟨-, i, -, hr⟩ := runWord_cases w { s with inputs := rest, resp := l } <;>
      exact .inr (.inr ⟨w, l, rest, hin, _, hr, by rw [hr] at h; cases h; rfl⟩)

/-- A step always gives a next state. -/
theorem step_next (s : State) : ∃ t, step s = .next t := by
  unfold step takeInput
  split
  · exact ⟨_, rfl⟩
  · exact ⟨_, rfl⟩
  · rename_i w l rest _
    obtain ⟨-, hr⟩ | ⟨-, -, hr⟩ | ⟨-, i, -, hr⟩ := runWord_cases w { s with inputs := rest, resp := l } <;>
      exact ⟨_, by rw [hr]; rfl⟩

/-- The configuration is fixed for the life of the block. -/
theorem step_cfg {s t : State} (h : step s = .next t) : t.cfg = s.cfg := by
  obtain ⟨-, rfl⟩ | ⟨_, _, -, rfl⟩ | ⟨w, l, rest, -, u, hu, rfl⟩ := step_cases h
  · rfl
  · rfl
  · obtain ⟨-, hr⟩ | ⟨-, -, hr⟩ | ⟨-, i, -, hr⟩ := runWord_cases w { s with inputs := rest, resp := l } <;>
      (rw [hr] at hu; cases hu; simp)

/-- A step that takes a command word. -/
theorem step_command {s : State} {w : Word} {l : List Byte} {rest : List Input}
    (h : s.inputs = .command w l :: rest) :
    step s = clearResp (runWord w { s with inputs := rest, resp := l }) := by
  simp [step, takeInput, h]

/-- A step that takes a word on a halted block. -/
theorem step_command_halted {s : State} {w : Word} {l : List Byte} {rest : List Input}
    (h : s.inputs = .command w l :: rest) (hs : s.halted = true) :
    step s = .next { refuse .halted s with inputs := rest, resp := [] } := by
  rw [step_command h, runWord_halted (s := { s with inputs := rest, resp := l }) hs]
  rfl

/-- A step that takes a word that spells no command. -/
theorem step_command_error {s : State} {w : Word} {l : List Byte} {rest : List Input} {e : DecodeError}
    (h : s.inputs = .command w l :: rest) (hs : s.halted = false) (hd : decode w = .error e) :
    step s = .next { refuse .badOp s with inputs := rest, resp := [] } := by
  rw [step_command h, runWord_error (s := { s with inputs := rest, resp := l }) hs hd]
  rfl

/-- A step that takes a word that spells a command. -/
theorem step_command_ok {s : State} {w : Word} {l : List Byte} {rest : List Input} {i : Instr}
    (h : s.inputs = .command w l :: rest) (hs : s.halted = false) (hd : decode w = .ok i) :
    step s
      = .next { report (cmdOutcome { s with resp := l } i) { s with inputs := rest, resp := l } with resp := [] } := by
  rw [step_command h, runWord_ok (s := { s with inputs := rest, resp := l }) hs hd]
  cases i <;> rfl

/-- A run of one step more, of any machine. -/
theorem core_run_succ (M : Host.Core) (n : Nat) (s u : M.State) (h : M.step s = .next u) :
    M.run (n + 1) s = M.run n u := by
  rw [Host.Core.run, h]

/-- A run of one step more. -/
theorem run_succ {s u : State} (n : Nat) (h : step s = .next u) :
    Host.Core.run Sys2Proof.core (n + 1) s = Host.Core.run Sys2Proof.core n u :=
  core_run_succ Sys2Proof.core n s u h

end Sys2Proof.Machine
end

