-- ==== Sys2Proof/Laws/Tables.lean ====
section
/-! SUPPORT. The constant tables and what a well-formed configuration gives (10_state.md R27, R29). -/

namespace Sys2Proof

open Sys2Proof.Machine

theorem FieldType.ofCode_eq_some {f : BitVec 4} {ft : FieldType} : FieldType.ofCode f = some ft ↔ f = ft.code := by
  revert f
  cases ft <;> decide

theorem FieldType.ofCode_eq_none {f : BitVec 4} : FieldType.ofCode f = none ↔ 2 < f.toNat := by
  revert f
  decide

@[simp] theorem FieldType.ofCode_code (ft : FieldType) : FieldType.ofCode ft.code = some ft := by
  cases ft <;> rfl

theorem FieldType.desc_wf (ft : FieldType) : wfDesc ft.width ft.shift = true := by cases ft <;> rfl

/-- A table answers only for the four raw codes of a two-bit field. -/
theorem DecodeTable.lookup_of_four_le {t : DecodeTable} {raw : Byte} (h : 4 ≤ raw.toNat) : t.lookup raw = none := by
  unfold DecodeTable.lookup
  split <;> first | omega | rfl

theorem raw_cases {raw : Byte} (h : raw.toNat < 4) : raw = 0 ∨ raw = 1 ∨ raw = 2 ∨ raw = 3 := by
  have : raw.toNat = 0 ∨ raw.toNat = 1 ∨ raw.toNat = 2 ∨ raw.toNat = 3 := by omega
  simpa [← BitVec.toNat_inj] using this

/-- The canonical codes are the image of the table. -/
theorem DecodeTable.mem_codes {t : DecodeTable} {c : Byte} : c ∈ t.codes ↔ ∃ raw, t.lookup raw = some c := by
  constructor
  · intro h
    simp only [DecodeTable.codes, List.mem_filterMap, List.mem_cons, List.not_mem_nil, or_false] at h
    obtain ⟨a, h, hc⟩ := h
    obtain rfl : a = some c := by simpa using hc
    obtain h | h | h | h := h <;> exact ⟨_, h.symm⟩
  · rintro ⟨raw, h⟩
    have hlt : raw.toNat < 4 := by
      by_contra hge
      rw [DecodeTable.lookup_of_four_le (by omega)] at h
      cases h
    refine List.mem_filterMap.2 ⟨some c, ?_, rfl⟩
    rw [← h]
    obtain rfl | rfl | rfl | rfl := raw_cases hlt <;> simp

/-- A canonical code is below 4, the range of a two-bit field. -/
theorem DecodeTable.lookup_lt {t : DecodeTable} {raw c : Byte} (h : t.lookup raw = some c) : c.toNat < 4 := by
  have key (o : Option (BitVec 2)) (h : o.map (·.setWidth 8) = some c) : c.toNat < 4 := by
    obtain ⟨a, -, rfl⟩ := Option.map_eq_some_iff.1 h
    have := a.isLt
    simp
    omega
  unfold DecodeTable.lookup at h
  split at h <;> first | exact key _ h | cases h

/-- In a well-formed table a canonical code decodes to itself. -/
theorem DecodeTable.lookup_canonical {t : DecodeTable} (ht : t.wf = true) {raw c : Byte} (h : t.lookup raw = some c) :
    t.lookup c = some c := by
  have := List.all_eq_true.1 ht c (DecodeTable.mem_codes.2 ⟨raw, h⟩)
  simpa using this

theorem fsDec_wf : fsDec.wf = true := by decide

theorem Config.decTable_wf {cfg : Config} (h : cfg.wf = true) (ft : FieldType) : (cfg.decTable ft).wf = true := by
  simp only [Config.wf, Bool.and_eq_true] at h
  cases ft
  · exact h.1.1.2
  · exact h.1.2
  · exact fsDec_wf

/-- Under total tables every raw code of every field type is mapped. -/
theorem Config.lookup_total {cfg : Config} (h : cfg.decTotal = true) (ft : FieldType) {raw : Byte}
    (hr : raw.toNat < 4) : ((cfg.decTable ft).lookup raw).isSome = true := by
  simp only [Config.decTotal, DecodeTable.total, Bool.and_eq_true, List.all_cons, List.all_nil, and_true] at h
  obtain rfl | rfl | rfl | rfl := raw_cases hr <;> cases ft <;>
    simp [Config.decTable, DecodeTable.lookup, fsDec, h]

theorem Config.named_iff {cfg : Config} {a : Nat} : cfg.named a = true ↔ Named cfg a := by
  simp [Config.named, Named]

theorem Config.burstNamed_iff {cfg : Config} {a : Addr} {n : Nat} :
    cfg.burstNamed a n = true ↔ BurstNamed cfg a n := by
  simp [Config.burstNamed, BurstNamed, Config.named_iff]

theorem Config.named_range {cfg : Config} (h : cfg.wf = true) {a : Nat} (ha : Named cfg a) : 0x0F ≤ a ∧ a ≤ 0x38 := by
  simp only [Config.wf, Config.mapWf, Bool.and_eq_true] at h
  obtain ⟨row, hr, rfl⟩ := ha
  have := List.all_eq_true.1 h.1.1.1.1.1.1.1.1.1 row hr
  simp only [Bool.and_eq_true, decide_eq_true_eq] at this
  exact this

theorem Config.addrOf_named {cfg : Config} {r : RegName} {a : Addr} (h : cfg.addrOf r = some a) : Named cfg a.toNat := by
  obtain ⟨row, hrow, rfl⟩ := Option.map_eq_some_iff.1 h
  exact ⟨row, List.mem_of_find?_eq_some hrow, rfl⟩

theorem Config.fsReg_named {cfg : Config} (h : cfg.wf = true) : Named cfg cfg.fsReg.toNat := by
  simp only [Config.wf, Config.mapWf, Bool.and_eq_true] at h
  have := h.1.1.1.1.2
  split at this
  · simp only [Bool.and_eq_true] at this
    exact Config.named_iff.1 this.1
  · cases this

/-- Every field type has a named host register. -/
theorem Config.hostReg_named {cfg : Config} (h : cfg.wf = true) (ft : FieldType) :
    ∃ a, cfg.hostReg ft = some a ∧ Named cfg a.toNat := by
  have hc : ∃ a, cfg.addrOf .ctrlReg1 = some a := by
    have h' := h
    simp only [Config.wf, Config.mapWf, Bool.and_eq_true] at h'
    have := h'.1.1.1.1.2
    split at this
    · exact ⟨_, ‹_›⟩
    · cases this
  obtain ⟨a, ha⟩ := hc
  cases ft
  · exact ⟨a, ha, Config.addrOf_named ha⟩
  · exact ⟨a, ha, Config.addrOf_named ha⟩
  · exact ⟨_, rfl, Config.fsReg_named h⟩

/-- FS_REG is not the first control register. -/
theorem Config.fsReg_ne {cfg : Config} (h : cfg.wf = true) {a : Addr} (ha : cfg.addrOf .ctrlReg1 = some a) :
    a ≠ cfg.fsReg := by
  simp only [Config.wf, Config.mapWf, Bool.and_eq_true] at h
  have := h.1.1.1.1.2
  simp [ha] at this
  exact this.2

/-- A strap level that selects an identity makes it SLAVE_ID. -/
theorem Config.strapId_of_strapFor {cfg : Config} {id : Addr} {sa0 : Bool} (h : cfg.strapFor id = some sa0) :
    cfg.strapId sa0 = id := by
  unfold Config.strapFor at h
  split_ifs at h with h0 h1 <;> cases h
  · simp [Config.strapId, h0]
  · simp [Config.strapId, h1]

/-- Exactly the two identities of the configuration have a strap level. -/
theorem Config.strapFor_isSome {cfg : Config} {id : Addr} :
    (cfg.strapFor id).isSome = true ↔ id = cfg.slaveId0 ∨ id = cfg.slaveId1 := by
  unfold Config.strapFor
  split_ifs <;> simp_all

theorem standard_wf : Config.standard.wf = true := by decide

theorem standard_decTotal : Config.standard.decTotal = true := by decide

end Sys2Proof
end

