-- ==== Sys2Proof/Laws/Answers.lean ====
section
/-! SUPPORT. From the outcome of a command to what Safety.lean says it answers, and back. -/

namespace Sys2Proof.Machine

variable {i : Instr} {s : State}

theorem answersRes_of_ok (hs : s.halted = false) {b : Byte} (h : cmdOutcome s i = .ok (.res b)) : AnswersRes i s b := by
  rw [AnswersRes, exec_of_not_halted hs, h]
  rfl

theorem answersXd_of_ok (hs : s.halted = false) {x : Exchange} (h : cmdOutcome s i = .ok (.xd x)) :
    AnswersXd i s x := by
  rw [AnswersXd, exec_of_not_halted hs, h]
  rfl

theorem answersPayload_of_ok (hs : s.halted = false) {l : List Byte} (h : cmdOutcome s i = .ok (.payload l)) :
    AnswersPayload i s l := by
  rw [AnswersPayload, exec_of_not_halted hs, h]
  rfl

theorem refusedWith_of_refuse (hs : s.halted = false) {r : Reason} (h : cmdOutcome s i = .refuse r) :
    RefusedWith i s r.status := by
  rw [RefusedWith, exec_of_not_halted hs, h]
  rfl

/-- A command that answers a byte ran on a block that was not halted, and ended ok with that byte. -/
theorem ok_of_answersRes {b : Byte} (h : AnswersRes i s b) : s.halted = false ∧ cmdOutcome s i = .ok (.res b) := by
  rw [AnswersRes] at h
  cases hs : s.halted
  · refine ⟨rfl, ?_⟩
    rw [exec_of_not_halted hs] at h
    injection h with h
    have hp := congrArg State.port h
    cases ho : cmdOutcome s i with
    | ok r => cases r <;> simp_all [report, Result.port, resPort]
    | refuse r => simp [ho, report, resPort] at hp
    | raise e => simp [ho, report, resPort] at hp
  · rw [exec_of_halted hs] at h
    injection h with h
    have hp := congrArg State.port h
    simp [resPort] at hp

/-- The descriptor of a command that ends ok with one. -/
theorem xd_of_port {x : Exchange} {t : State} (hs : s.halted = false) (h : exec i s = .next t)
    (hx : t.port.xd = some x) : cmdOutcome s i = .ok (.xd x) := by
  rw [exec_of_not_halted hs] at h
  injection h with h
  subst h
  cases ho : cmdOutcome s i with
  | ok r => cases r <;> simp_all [report, Result.port]
  | refuse r => simp [ho, report] at hx
  | raise e => simp [ho, report] at hx

end Sys2Proof.Machine
end

