-- ==== Sys2Proof/Laws/Codec.lean ====
section
/-! SUPPORT. The codec formulas bit by bit: what `fieldMask`, `fieldEncoded`, `fieldInserted` and `fieldExtracted` are. -/

namespace Sys2Proof.Machine

theorem getLsbD_trunc8 (x k : Nat) : (trunc8 x).getLsbD k = (decide (k < 8) && x.testBit k) := by
  simp [trunc8, BitVec.getLsbD_ofNat]

theorem wfDesc_iff (w s : Nat) : wfDesc w s = true ↔ 1 ≤ w ∧ w ≤ 8 ∧ s ≤ 7 ∧ s + w ≤ 8 := by
  simp [wfDesc, and_assoc]

/-- The mask of a field has one-bits exactly at the places of the field. -/
theorem getLsbD_fieldMask (w s k : Nat) :
    (fieldMask w s).getLsbD k = (decide (k < 8) && decide (s ≤ k) && decide (k < s + w)) := by
  rw [fieldMask, getLsbD_trunc8, Nat.testBit_shiftLeft, Nat.testBit_two_pow_sub_one, Bool.eq_iff_iff]
  simp only [Bool.and_eq_true, decide_eq_true_eq]
  omega

theorem getLsbD_maskForWidth (w k : Nat) : (maskForWidth w).getLsbD k = (decide (k < 8) && decide (k < w)) := by
  rw [maskForWidth, getLsbD_trunc8, Nat.testBit_two_pow_sub_one]

/-- An encoded value has the value's bits at the places of the field, and zeros elsewhere. -/
theorem getLsbD_fieldEncoded (w s k : Nat) (v : Byte) :
    (fieldEncoded w s v).getLsbD k
      = (decide (k < 8) && decide (s ≤ k) && decide (k < s + w) && v.getLsbD (k - s)) := by
  rw [fieldEncoded, BitVec.getLsbD_and, getLsbD_fieldMask, getLsbD_trunc8, Nat.testBit_shiftLeft,
    BitVec.testBit_toNat]
  cases v.getLsbD (k - s) <;> simp

/-- An insertion takes the value's bits at the places of the field, and the current byte's elsewhere. -/
theorem getLsbD_fieldInserted (w s k : Nat) (v cur : Byte) :
    (fieldInserted w s v cur).getLsbD k
      = if k < 8 ∧ s ≤ k ∧ k < s + w then v.getLsbD (k - s) else cur.getLsbD k := by
  rw [fieldInserted, BitVec.getLsbD_or, BitVec.getLsbD_and, getLsbD_fieldEncoded, BitVec.getLsbD_not,
    getLsbD_fieldMask]
  by_cases h8 : k < 8
  · by_cases h : s ≤ k ∧ k < s + w
    · simp [h8, h.1, h.2]
    · rw [if_neg (by tauto)]
      have : (decide (s ≤ k) && decide (k < s + w)) = false := by simpa using h
      simp [h8, this]
  · simp [h8, BitVec.getLsbD_of_ge cur k (by omega)]

/-- An extraction takes the bits of the field to the bottom, and zeros above. -/
theorem getLsbD_fieldExtracted (w s k : Nat) (b : Byte) :
    (fieldExtracted w s b).getLsbD k = (decide (k < 8) && decide (k < w) && b.getLsbD (s + k)) := by
  rw [fieldExtracted, BitVec.getLsbD_and, getLsbD_maskForWidth, BitVec.getLsbD_ushiftRight]
  cases b.getLsbD (s + k) <;> simp

/-- A value below `2^w` has no bit at or above `w`. -/
theorem getLsbD_of_lt_two_pow {v : Byte} {w k : Nat} (h : v.toNat < 2 ^ w) (hk : w ≤ k) : v.getLsbD k = false := by
  rw [← BitVec.testBit_toNat]
  exact Nat.testBit_lt_two_pow (lt_of_lt_of_le h (Nat.pow_le_pow_right (by norm_num) hk))

/-- A byte whose bits at and above `w` are 0 is below `2^w`. -/
theorem lt_two_pow_of_getLsbD {v : Byte} {w : Nat} (h : ∀ k, w ≤ k → v.getLsbD k = false) : v.toNat < 2 ^ w :=
  Nat.lt_pow_two_of_testBit _ fun k hk => by rw [BitVec.testBit_toNat]; exact h k hk

theorem fieldExtracted_lt (w s : Nat) (b : Byte) : (fieldExtracted w s b).toNat < 2 ^ w :=
  lt_two_pow_of_getLsbD fun k hk => by rw [getLsbD_fieldExtracted]; simp; omega

end Sys2Proof.Machine
end

