-- ==== Sys2Proof/Laws/Decode.lean ====
section
/-! SUPPORT. The fields of the four formats of the command word (30_encoding.md R82 to R85): what `formatD`, `formatT`,
`formatA` and `formatR` put at each place, and when a run of bits is zero. -/

namespace Sys2Proof

/-- A run of bits of a word, bit by bit: the one fact behind every lemma of this file. -/
theorem extractLsb'_eq_iff {n m lo : Nat} (w : BitVec n) (f : BitVec m) :
    w.extractLsb' lo m = f ↔ ∀ k, k < m → w.getLsbD (lo + k) = f.getLsbD k := by
  constructor
  · rintro rfl k hk
    simp [hk]
  · intro h
    apply BitVec.eq_of_getLsbD_eq
    intro k hk
    simp [hk, h k hk]

/-- A run of bits of an append lies in its low part. -/
theorem extractLsb'_append_low {n m lo len : Nat} (x : BitVec n) (y : BitVec m) (h : lo + len ≤ m) :
    (x ++ y).extractLsb' lo len = y.extractLsb' lo len := by
  rw [extractLsb'_eq_iff]
  intro k hk
  rw [BitVec.getLsbD_append, if_pos (by omega)]
  simp [hk]

/-- A run of bits of an append lies in its high part. -/
theorem extractLsb'_append_high {n m lo len : Nat} (x : BitVec n) (y : BitVec m) (h : m ≤ lo) :
    (x ++ y).extractLsb' lo len = x.extractLsb' (lo - m) len := by
  rw [extractLsb'_eq_iff]
  intro k hk
  rw [BitVec.getLsbD_append, if_neg (by omega)]
  have : lo + k - m = lo - m + k := by omega
  simp [hk, this]

theorem extractLsb'_whole {n : Nat} (x : BitVec n) : x.extractLsb' 0 n = x := by
  rw [extractLsb'_eq_iff]
  simp

/-- A must-be-zero run, bit by bit. -/
theorem zeroBits_iff (w : Word) (hi lo : Nat) :
    zeroBits w hi lo = true ↔ ∀ k, lo ≤ k → k ≤ hi → w.getLsbD k = false := by
  rw [zeroBits, beq_iff_eq, extractLsb'_eq_iff]
  constructor
  · intro h k hlo hhi
    have := h (k - lo) (by omega)
    rw [Nat.add_sub_cancel' hlo] at this
    simpa using this
  · intro h k hk
    simpa using h (lo + k) (by omega) (by omega)

/-- A run inside a must-be-zero run is zero. -/
theorem zeroBits_sub {w : Word} {hi lo hi' lo' : Nat} (h : zeroBits w hi lo = true) (hlo : lo ≤ lo') (hhi : hi' ≤ hi) :
    zeroBits w hi' lo' = true :=
  (zeroBits_iff w hi' lo').2 fun k h1 h2 => (zeroBits_iff w hi lo).1 h k (by omega) (by omega)

/-- A field of the word, bit by bit. -/
theorem getLsbD_field (w : Word) {lo len k : Nat} (h1 : lo ≤ k) (h2 : k < lo + len) :
    (w.extractLsb' lo len).getLsbD (k - lo) = w.getLsbD k := by
  rw [BitVec.getLsbD_extractLsb', decide_eq_true (by omega), Bool.true_and, Nat.add_sub_cancel' h1]

/-- What a masked word says of the bits of the word. -/
theorem getLsbD_of_and_eq {w m v : Word} (h : w &&& m = v) {k : Nat} (hk : m.getLsbD k = true) :
    w.getLsbD k = v.getLsbD k := by
  rw [← h, BitVec.getLsbD_and, hk, Bool.and_true]

/-! ## Format D -/

section FormatD
variable (op w s : BitVec 4) (v b : Byte)

theorem getLsbD_formatD (k : Nat) :
    (formatD op w s v b).getLsbD k
      = if k < 8 then b.getLsbD k else if k < 16 then v.getLsbD (k - 8) else if k < 20 then false
        else if k < 24 then s.getLsbD (k - 20) else if k < 28 then w.getLsbD (k - 24) else op.getLsbD (k - 28) := by
  simp only [formatD, BitVec.getLsbD_append]
  split_ifs <;> first | omega | simp [Nat.sub_sub]

theorem opField_formatD : opField (formatD op w s v b) = op := by
  simp (disch := decide) only [opField, formatD, extractLsb'_append_high, Nat.reduceSub, extractLsb'_whole]

theorem widthField_formatD : widthField (formatD op w s v b) = w := by
  simp (disch := decide) only [widthField, formatD, extractLsb'_append_high, extractLsb'_append_low, Nat.reduceSub,
    extractLsb'_whole]

theorem shiftField_formatD : shiftField (formatD op w s v b) = s := by
  simp (disch := decide) only [shiftField, formatD, extractLsb'_append_high, extractLsb'_append_low, Nat.reduceSub,
    extractLsb'_whole]

theorem valueField_formatD : valueField (formatD op w s v b) = v := by
  simp (disch := decide) only [valueField, formatD, extractLsb'_append_high, extractLsb'_append_low, Nat.reduceSub,
    extractLsb'_whole]

theorem byteField_formatD : byteField (formatD op w s v b) = b := by
  simp (disch := decide) only [byteField, formatD, extractLsb'_append_low, extractLsb'_whole]

/-- A word whose bits 19:16 are zero is the format D word of its fields. -/
theorem formatD_fields {x : Word} (h : zeroBits x 19 16 = true) :
    formatD (opField x) (widthField x) (shiftField x) (valueField x) (byteField x) = x := by
  apply BitVec.eq_of_getLsbD_eq
  intro k hk
  rw [getLsbD_formatD]
  split_ifs
  · exact getLsbD_field x (Nat.zero_le k) (by omega)
  · exact getLsbD_field x (by omega) (by omega)
  · exact ((zeroBits_iff x 19 16).1 h k (by omega) (by omega)).symm
  · exact getLsbD_field x (by omega) (by omega)
  · exact getLsbD_field x (by omega) (by omega)
  · exact getLsbD_field x (by omega) (by omega)

end FormatD

/-! ## Format T -/

section FormatT
variable (op f : BitVec 4) (c b : Byte)

theorem getLsbD_formatT (k : Nat) :
    (formatT op f c b).getLsbD k
      = if k < 8 then b.getLsbD k else if k < 16 then c.getLsbD (k - 8) else if k < 24 then false
        else if k < 28 then f.getLsbD (k - 24) else op.getLsbD (k - 28) := by
  simp only [formatT, BitVec.getLsbD_append]
  split_ifs <;> first | omega | simp [Nat.sub_sub]

theorem opField_formatT : opField (formatT op f c b) = op := by
  simp (disch := decide) only [opField, formatT, extractLsb'_append_high, Nat.reduceSub, extractLsb'_whole]

theorem ftypeField_formatT : ftypeField (formatT op f c b) = f := by
  simp (disch := decide) only [ftypeField, formatT, extractLsb'_append_high, extractLsb'_append_low, Nat.reduceSub,
    extractLsb'_whole]

theorem valueField_formatT : valueField (formatT op f c b) = c := by
  simp (disch := decide) only [valueField, formatT, extractLsb'_append_high, extractLsb'_append_low, Nat.reduceSub,
    extractLsb'_whole]

theorem byteField_formatT : byteField (formatT op f c b) = b := by
  simp (disch := decide) only [byteField, formatT, extractLsb'_append_low, extractLsb'_whole]

/-- A word whose bits 23:16 are zero is the format T word of its fields. -/
theorem formatT_fields {x : Word} (h : zeroBits x 23 16 = true) :
    formatT (opField x) (ftypeField x) (valueField x) (byteField x) = x := by
  apply BitVec.eq_of_getLsbD_eq
  intro k hk
  rw [getLsbD_formatT]
  split_ifs
  · exact getLsbD_field x (Nat.zero_le k) (by omega)
  · exact getLsbD_field x (by omega) (by omega)
  · exact ((zeroBits_iff x 23 16).1 h k (by omega) (by omega)).symm
  · exact getLsbD_field x (by omega) (by omega)
  · exact getLsbD_field x (by omega) (by omega)

end FormatT

/-! ## Formats A and R -/

section FormatA
variable (op : BitVec 4) (t : BitVec 1) (n v : Byte) (a : Addr)

theorem getLsbD_formatA (k : Nat) :
    (formatA op t n v a).getLsbD k
      = if k < 7 then a.getLsbD k else if k < 8 then false else if k < 16 then v.getLsbD (k - 8)
        else if k < 24 then n.getLsbD (k - 16) else if k < 27 then false else if k < 28 then t.getLsbD (k - 27)
        else op.getLsbD (k - 28) := by
  simp only [formatA, BitVec.getLsbD_append]
  split_ifs <;> first | omega | simp [Nat.sub_sub]

theorem opField_formatA : opField (formatA op t n v a) = op := by
  simp (disch := decide) only [opField, formatA, extractLsb'_append_high, Nat.reduceSub, extractLsb'_whole]

theorem busField_formatA : busField (formatA op t n v a) = t := by
  simp (disch := decide) only [busField, formatA, extractLsb'_append_high, extractLsb'_append_low, Nat.reduceSub,
    extractLsb'_whole]

theorem lengthField_formatA : lengthField (formatA op t n v a) = n := by
  simp (disch := decide) only [lengthField, formatA, extractLsb'_append_high, extractLsb'_append_low, Nat.reduceSub,
    extractLsb'_whole]

theorem valueField_formatA : valueField (formatA op t n v a) = v := by
  simp (disch := decide) only [valueField, formatA, extractLsb'_append_high, extractLsb'_append_low, Nat.reduceSub,
    extractLsb'_whole]

theorem addrField_formatA : addrField (formatA op t n v a) = a := by
  simp (disch := decide) only [addrField, formatA, extractLsb'_append_low, extractLsb'_whole]

/-- A word whose bits 26:24 and 7 are zero is the format A word of its fields. -/
theorem formatA_fields {x : Word} (h : zeroBits x 26 24 = true) (h7 : zeroBits x 7 7 = true) :
    formatA (opField x) (busField x) (lengthField x) (valueField x) (addrField x) = x := by
  apply BitVec.eq_of_getLsbD_eq
  intro k hk
  rw [getLsbD_formatA]
  split_ifs
  · exact getLsbD_field x (Nat.zero_le k) (by omega)
  · exact ((zeroBits_iff x 7 7).1 h7 k (by omega) (by omega)).symm
  · exact getLsbD_field x (by omega) (by omega)
  · exact getLsbD_field x (by omega) (by omega)
  · exact ((zeroBits_iff x 26 24).1 h k (by omega) (by omega)).symm
  · exact getLsbD_field x (by omega) (by omega)
  · exact getLsbD_field x (by omega) (by omega)

theorem getLsbD_formatR (k : Nat) :
    (formatR t).getLsbD k = if k < 27 then false else if k < 28 then t.getLsbD (k - 27) else (0xB#4).getLsbD (k - 28) := by
  simp only [formatR, BitVec.getLsbD_append]
  split_ifs <;> first | omega | simp [Nat.sub_sub]

theorem opField_formatR : opField (formatR t) = 0xB#4 := by
  simp (disch := decide) only [opField, formatR, extractLsb'_append_high, Nat.reduceSub, extractLsb'_whole]

theorem busField_formatR : busField (formatR t) = t := by
  simp (disch := decide) only [busField, formatR, extractLsb'_append_high, extractLsb'_append_low, Nat.reduceSub,
    extractLsb'_whole]

/-- A word with `op` 0xB whose bits 26:0 are zero is the format R word of its transport. -/
theorem formatR_fields {x : Word} (ho : opField x = 0xB#4) (h : zeroBits x 26 0 = true) : formatR (busField x) = x := by
  apply BitVec.eq_of_getLsbD_eq
  intro k hk
  rw [getLsbD_formatR]
  split_ifs
  · exact ((zeroBits_iff x 26 0).1 h k (by omega) (by omega)).symm
  · exact getLsbD_field x (by omega) (by omega)
  · rw [← ho]
    exact getLsbD_field x (by omega) (by omega)

end FormatA

end Sys2Proof
end

