-- ==== Sys2Proof/Laws/Device.lean ====
section
/-! SUPPORT. The storage device: read after write, and what a run of reads shifts out. -/

namespace Sys2Proof.Machine

/-- A register reads as the byte last written to it. -/
theorem DeviceFile.read_write_self (d : DeviceFile) (a : Addr) (v : Byte) :
    (d.write a v).read a.toNat = some v := by
  have : a.toNat < 128 := a.isLt
  simp [DeviceFile.read, DeviceFile.write, this]

/-- A write leaves every other register alone. -/
theorem DeviceFile.read_write_ne (d : DeviceFile) {a : Addr} {b : Nat} (v : Byte) (h : b ≠ a.toNat) :
    (d.write a v).read b = d.read b := by
  simp [DeviceFile.read, DeviceFile.write, h.symm]

/-- Below 128 there is a register. -/
theorem DeviceFile.read_isSome (d : DeviceFile) {a : Nat} (h : a < 128) : ∃ b, d.read a = some b :=
  ⟨d.cells[a], by simp [DeviceFile.read, h]⟩

/-- A run of reads that stays below 128 shifts out the registers in ascending order. -/
theorem DeviceFile.shiftOut_spec (d : DeviceFile) (n : Nat) :
    ∀ p, p + n ≤ 128 → ∃ l, d.shiftOut p n = some l ∧ l.length = n ∧ ∀ k, k < n → l[k]? = d.read (p + k) := by
  induction n with
  | zero => exact fun p _ => ⟨[], rfl, rfl, fun k hk => absurd hk (Nat.not_lt_zero k)⟩
  | succ n ih =>
    intro p hp
    obtain ⟨b, hb⟩ := d.read_isSome (a := p) (by omega)
    obtain ⟨l, hl, hlen, hget⟩ := ih (p + 1) (by omega)
    refine ⟨b :: l, by simp [DeviceFile.shiftOut, hb, hl], by simp [hlen], fun k hk => ?_⟩
    cases k with
    | zero => simpa using hb.symm
    | succ k =>
      rw [List.getElem?_cons_succ, hget k (by omega)]
      congr 1
      omega

/-- A slice of named registers stays below 128. -/
theorem burst_below {cfg : Config} (h : cfg.wf = true) {a : Addr} {n : Nat} (hb : BurstNamed cfg a n) :
    a.toNat + n ≤ 128 := by
  have ha : a.toNat < 128 := a.isLt
  cases n with
  | zero => omega
  | succ n =>
    have := (Config.named_range h (hb n (Nat.lt_succ_self n))).2
    omega

end Sys2Proof.Machine
end

