-- ==== Sys2Proof/Laws/Frames.lean ====
section
/-! SUPPORT. The bits of the address-carrying bytes (30_encoding.md R88, R90, R96). -/

namespace Sys2Proof.Machine

theorem getLsbD_headerByte (rw ms : BitVec 1) (a : Addr) (k : Nat) :
    (headerByte rw ms a).getLsbD k
      = ((decide (k = 7) && rw.getLsbD 0) || (decide (k = 6) && ms.getLsbD 0) || a.getLsbD k) := by
  by_cases hk : k < 8
  · have hk' : k = 0 ∨ k = 1 ∨ k = 2 ∨ k = 3 ∨ k = 4 ∨ k = 5 ∨ k = 6 ∨ k = 7 := by omega
    obtain rfl | rfl | rfl | rfl | rfl | rfl | rfl | rfl := hk' <;> simp [headerByte]
  · have h7 : k ≠ 7 := by omega
    have h6 : k ≠ 6 := by omega
    simp [h7, h6, BitVec.getLsbD_of_ge _ k (Nat.le_of_not_lt hk), BitVec.getLsbD_of_ge a k (by omega)]

theorem getLsbD_six_of_lt {a : Addr} (h : a.toNat < 64) : a.getLsbD 6 = false := by
  rw [← BitVec.testBit_toNat]
  exact Nat.testBit_lt_two_pow h

/-- Bit 7 of a header byte is the read/write bit. -/
theorem headerByte_rw (rw ms : BitVec 1) (a : Addr) : (headerByte rw ms a).extractLsb' 7 1 = rw := by
  apply BitVec.eq_of_getLsbD_eq
  intro k hk
  obtain rfl : k = 0 := by omega
  rw [BitVec.getLsbD_extractLsb', getLsbD_headerByte]
  simp

/-- Bit 6 of a header byte is the single/multi bit, for an address below 0x40. -/
theorem headerByte_ms (rw ms : BitVec 1) {a : Addr} (h : a.toNat < 64) :
    (headerByte rw ms a).extractLsb' 6 1 = ms := by
  apply BitVec.eq_of_getLsbD_eq
  intro k hk
  obtain rfl : k = 0 := by omega
  rw [BitVec.getLsbD_extractLsb', getLsbD_headerByte, getLsbD_six_of_lt h]
  simp

/-- Bits 5:0 of a header byte are the address, for an address below 0x40. -/
theorem headerByte_addr (rw ms : BitVec 1) {a : Addr} (h : a.toNat < 64) :
    ((headerByte rw ms a).extractLsb' 0 6).toNat = a.toNat := by
  have : (headerByte rw ms a).extractLsb' 0 6 = a.setWidth 6 := by
    apply BitVec.eq_of_getLsbD_eq
    intro k hk
    have h7 : k ≠ 7 := by omega
    have h6 : k ≠ 6 := by omega
    rw [BitVec.getLsbD_extractLsb', getLsbD_headerByte]
    simp [h7, h6, hk]
  rw [this, BitVec.toNat_setWidth]
  exact Nat.mod_eq_of_lt h

theorem subAddress_marker (a : Addr) : (subAddress a).extractLsb' 7 1 = 0 := by
  revert a
  decide

theorem subAddress_addr (a : Addr) : (subAddress a).extractLsb' 0 7 = a := by
  revert a
  decide

theorem subAddressBurst_marker (a : Addr) : (subAddressBurst a).extractLsb' 7 1 = 1 := by
  revert a
  decide

theorem subAddressBurst_addr (a : Addr) : (subAddressBurst a).extractLsb' 0 7 = a := by
  revert a
  decide

theorem rwWrite_ne (cfg : Config) : rwWrite cfg ≠ cfg.rwRead := by
  unfold rwWrite
  generalize cfg.rwRead = b
  revert b
  decide

end Sys2Proof.Machine
end

