-- ==== Sys2Proof/Laws/HostSeq.lean ====
section
/-! SUPPORT. What the host's primitives do, so that a sequence is followed without unfolding `step`. The lemmas about
`issue` take the round trip of the command's word as a premise. -/

namespace Sys2Proof.Machine

@[simp] theorem andThen_done {α β : Type} (a : α) (w : World) (k : α → World → HostResult β) :
    (HostResult.done a w).andThen k = k a w := rfl

@[simp] theorem andThen_stopped {α β : Type} (why : HostStop) (w : World) (k : α → World → HostResult β) :
    (HostResult.stopped why w : HostResult α).andThen k = .stopped why w := rfl

@[simp] theorem need_some {α : Type} (a : α) (why : HostStop) (w : World) : need (some a) why w = .done a w := rfl

@[simp] theorem need_none {α : Type} (why : HostStop) (w : World) : need (none : Option α) why w = .stopped why w := rfl

@[simp] theorem port_status (r : Result) : r.port.status = statusOk := by cases r <;> rfl

/-- The outcome of a command does not depend on what was on the result port or is still to be presented. -/
theorem cmdOutcome_congr {s t : State} (i : Instr) (hc : s.cfg = t.cfg) (hi : s.slaveId = t.slaveId)
    (hr : s.resp = t.resp) : cmdOutcome s i = cmdOutcome t i := by
  cases i <;> simp [cmdOutcome, hc, hi, hr]

/-- A step on a presented command of a block that is not halted. -/
theorem step_present {i : Instr} (hd : decode (encode i) = .ok i) (resp : List Byte) {s : State}
    (hs : s.halted = false) :
    step (present (encode i) resp s)
      = .next { report (cmdOutcome { s with resp := resp } i) { s with resp := resp } with resp := [] } := by
  rw [step_command (present_inputs s (encode i) resp),
    runWord_ok (s := { present (encode i) resp s with inputs := s.inputs, resp := resp }) hs hd]
  rfl

/-- Issuing a command that ends ok. -/
theorem issue_ok {i : Instr} (hd : decode (encode i) = .ok i) {resp : List Byte} {w : World}
    (hs : w.block.halted = false) {r : Result} (ho : cmdOutcome { w.block with resp := resp } i = .ok r) :
    issue i resp w = .done r.port { w with block := { w.block with resp := [], port := r.port } } := by
  rw [issue, step_present hd resp hs, ho]
  simp [report]

/-- Issuing a command that is refused. -/
theorem issue_refused {i : Instr} (hd : decode (encode i) = .ok i) {resp : List Byte} {w : World}
    (hs : w.block.halted = false) {r : Reason} (ho : cmdOutcome { w.block with resp := resp } i = .refuse r) :
    issue i resp w
      = .stopped (.notOk ⟨r.status, none, none, none, none⟩)
          { w with block := { w.block with resp := [], port := ⟨r.status, none, none, none, none⟩ } } := by
  rw [issue, step_present hd resp hs, ho]
  have : r.status ≠ statusOk := by cases r <;> decide
  simp [report, refuse, this]

/-- An exchange that is answered at its length. -/
theorem xfer_ok {x : Exchange} {w : World} {rx : List Byte} {far : FarSide}
    (h : w.far.exchange x = some (.bytes rx, far)) (hl : rx.length = x.answerLength) :
    xfer x w = .done rx { w with far := far, wire := w.wire ++ [x] } := by
  simp [xfer, h, hl]

/-- Everything an exchange that ends with bytes can be. -/
theorem xfer_done {x : Exchange} {w w' : World} {rx : List Byte} (h : xfer x w = .done rx w') :
    rx.length = x.answerLength ∧ ∃ far, w.far.exchange x = some (.bytes rx, far)
      ∧ w' = { w with far := far, wire := w.wire ++ [x] } := by
  unfold xfer at h
  split at h
  · split_ifs at h with hl
    cases h
    exact ⟨hl, _, ‹_›, rfl⟩
  · cases h
  · cases h

/-- A sequence that ends is a first part that ends and the rest that ends. -/
theorem andThen_eq_done {α β : Type} {r : HostResult α} {k : α → World → HostResult β} {b : β} {w' : World}
    (h : r.andThen k = .done b w') : ∃ a w, r = .done a w ∧ k a w = .done b w' := by
  cases r with
  | done a w => exact ⟨a, w, rfl, h⟩
  | stopped why w => cases h

theorem need_eq_done {α : Type} {o : Option α} {why : HostStop} {w w' : World} {a : α}
    (h : need o why w = .done a w') : o = some a ∧ w' = w := by
  cases o with
  | some b => cases h; exact ⟨rfl, rfl⟩
  | none => cases h

/-- Resetting the block: it takes the reset and nothing else. -/
theorem resetWith_eq (sa0 : Bool) (w : World) :
    resetWith sa0 w = .done () { w with block := resetBlock sa0 w.block } := rfl

/-- An identity that a strap level selects becomes SLAVE_ID; configuration, far side and exchanges stay. -/
theorem adoptIdentity_ok {id : Addr} {w : World} {sa0 : Bool} (h : w.block.cfg.strapFor id = some sa0) :
    ∃ b, adoptIdentity id w = .done () { w with block := b } ∧ b.slaveId = id ∧ b.cfg = w.block.cfg
      ∧ (w.block.halted = false → b.halted = false) := by
  by_cases hid : w.block.slaveId = id
  · exact ⟨w.block, by simp [adoptIdentity, h, hid], hid, rfl, fun hs => hs⟩
  · exact ⟨resetBlock sa0 w.block, by simp [adoptIdentity, h, hid, resetWith_eq], Config.strapId_of_strapFor h, rfl,
      fun _ => rfl⟩

/-- The outcome of `BIT k, b`. -/
theorem cmdOutcome_bit (s : State) (k : Fin 8) (b : Byte) :
    cmdOutcome s (.bit (BitVec.ofNat 4 k.val) b) = .ok (.res (fieldExtracted 1 k.val b)) := by
  have hk : (BitVec.ofNat 4 k.val).toNat = k.val := by
    rw [BitVec.toNat_ofNat]
    omega
  have hw : wfDesc 1 k.val = true := (wfDesc_iff 1 k.val).2 (by omega)
  simp only [cmdOutcome, extOutcome, withDesc, hk]
  exact if_pos hw

/-- One bit of a byte read by command: its value, and what stands on the result port; no exchange. -/
theorem readBit_ok {k : Fin 8} {b : Byte}
    (hd : decode (encode (.bit (BitVec.ofNat 4 k.val) b)) = .ok (.bit (BitVec.ofNat 4 k.val) b)) {w : World}
    (hs : w.block.halted = false) :
    readBit k b w = .done (byteBit k b)
      { w with block := { w.block with resp := [], port := (Result.res (fieldExtracted 1 k.val b)).port } } := by
  rw [readBit, issue_ok hd hs (cmdOutcome_bit _ k b)]
  rfl

/-- A framing command that ends ok, and its exchange. -/
theorem access_ok {i : Instr} (hd : decode (encode i) = .ok i) {w : World} (hs : w.block.halted = false)
    {x : Exchange} (ho : cmdOutcome { w.block with resp := [] } i = .ok (.xd x)) :
    access i w = xfer x { w with block := { w.block with resp := [], port := (Result.xd x).port } } := by
  rw [access, issue_ok hd hs ho]
  rfl

/-- A framing command that ends ok, where the far side answers at the length of the exchange. -/
theorem access_answered {i : Instr} (hd : decode (encode i) = .ok i) {w : World} (hs : w.block.halted = false)
    {x : Exchange} (ho : cmdOutcome { w.block with resp := [] } i = .ok (.xd x)) {rx : List Byte} {far : FarSide}
    (hx : w.far.exchange x = some (.bytes rx, far)) (hl : rx.length = x.answerLength) :
    access i w = .done rx
      { block := { w.block with resp := [], port := (Result.xd x).port }, far := far, wire := w.wire ++ [x] } := by
  rw [access_ok hd hs ho]
  exact xfer_ok hx hl

/-- `DRSP.t` on a response list that it admits. -/
theorem payloadOf_ok {t : Bus} (hd : decode (encode (.drsp t)) = .ok (.drsp t)) {rx l : List Byte} {w : World}
    (hs : w.block.halted = false) (ho : cmdOutcome { w.block with resp := rx } (.drsp t) = .ok (.payload l)) :
    payloadOf t rx w
      = .done l { w with block := { w.block with resp := [], port := (Result.payload l).port } } := by
  rw [payloadOf, issue_ok hd hs ho]
  rfl

/-- The status decode by commands: the flags of the byte, and what stands on the result port; no exchange. -/
theorem readFlags_ok (hd : ∀ i, decode (encode i) = .ok i) (l : StatusLayout) (b : Byte) {w : World}
    (hs : w.block.halted = false) :
    readFlags l b w = .done (decodeStatus l b)
      { w with block := { w.block with resp := [], port := (Result.res (fieldExtracted 1 0 b)).port } } := by
  rw [readFlags, readBit_ok (hd _) hs, andThen_done, readBit_ok (hd _), andThen_done, readBit_ok (hd _), andThen_done,
    readBit_ok (hd _), andThen_done, readBit_ok (hd _), andThen_done, readBit_ok (hd _), andThen_done,
    readBit_ok (hd _), andThen_done, readBit_ok (hd _), andThen_done]
  · rfl
  all_goals exact hs

/-! ## What a part that ends has done -/

/-- Everything an issued command that ends ok can be. -/
theorem issue_done {i : Instr} (hd : decode (encode i) = .ok i) {resp : List Byte} {w w' : World} {p : ResultPort}
    (h : issue i resp w = .done p w') :
    w.block.halted = false ∧ ∃ r, cmdOutcome { w.block with resp := resp } i = .ok r ∧ p = r.port
      ∧ w' = { w with block := { w.block with resp := [], port := r.port } } := by
  cases hs : w.block.halted with
  | true =>
    rw [issue, step_command_halted (present_inputs w.block (encode i) resp) hs] at h
    simp [Reason.status, statusOk] at h
  | false =>
    cases ho : cmdOutcome { w.block with resp := resp } i with
    | ok r =>
      rw [issue_ok hd hs ho] at h
      cases h
      exact ⟨rfl, r, rfl, rfl, rfl⟩
    | refuse r =>
      rw [issue_refused hd hs ho] at h
      cases h
    | raise e =>
      rw [issue, step_present hd resp hs, ho] at h
      simp [report, statusOk] at h

/-- Everything a framing command and its exchange that end can be. -/
theorem access_done {i : Instr} (hd : decode (encode i) = .ok i) {w w' : World} {rx : List Byte}
    (h : access i w = .done rx w') :
    w.block.halted = false ∧ ∃ x far, cmdOutcome { w.block with resp := [] } i = .ok (.xd x)
      ∧ rx.length = x.answerLength
      ∧ w' = { block := { w.block with resp := [], port := (Result.xd x).port }, far := far, wire := w.wire ++ [x] } := by
  rw [access] at h
  obtain ⟨p, w₁, hi, h⟩ := andThen_eq_done h
  obtain ⟨x, w₂, hn, hx'⟩ := andThen_eq_done h
  obtain ⟨hx, rfl⟩ := need_eq_done hn
  obtain ⟨hs, r, ho, rfl, rfl⟩ := issue_done hd hi
  obtain ⟨hl, far, -, rfl⟩ := xfer_done hx'
  cases r with
  | xd y =>
    cases hx
    exact ⟨hs, _, far, ho, hl, rfl⟩
  | res b => cases hx
  | payload l => cases hx

/-- Everything a `DRSP.t` that ends can be. -/
theorem payloadOf_done {t : Bus} (hd : decode (encode (.drsp t)) = .ok (.drsp t)) {w w' : World} {rx l : List Byte}
    (h : payloadOf t rx w = .done l w') :
    w.block.halted = false ∧ cmdOutcome { w.block with resp := rx } (.drsp t) = .ok (.payload l)
      ∧ w' = { w with block := { w.block with resp := [], port := (Result.payload l).port } } := by
  rw [payloadOf] at h
  obtain ⟨p, w₁, hi, h⟩ := andThen_eq_done h
  obtain ⟨hx, rfl⟩ := need_eq_done h
  obtain ⟨hs, r, ho, rfl, rfl⟩ := issue_done hd hi
  cases r with
  | payload m =>
    cases hx
    exact ⟨hs, ho, rfl⟩
  | res b => cases hx
  | xd x => cases hx

end Sys2Proof.Machine
end

