-- ==== Sys2Proof/Laws/PerInstr.lean ====
section
/-! SUPPORT. Family EncodeRow: the word of every command spells the command's own row of the opcode table
(30_encoding.md R100), which was copied from the spec and not from the encoder. -/

namespace Sys2Proof.Laws.EncodeRow

open Sys2Proof Sys2Proof.Machine

/-- The word of `i` matches the row of the table that has the mnemonic of `i`. -/
def Statement (i : Instr) : Prop := ∃ row ∈ opcodeRows, row.mnemonic = i.mnemonic ∧ Spells (encode i) row

/-- Masking a word field by field: the fields of a format with the fields of a mask. -/
theorem formatD_and (op w s : BitVec 4) (v b : Byte) (mo mw ms mz : BitVec 4) (mv mb : Byte) :
    formatD op w s v b &&& (mo ++ mw ++ ms ++ mz ++ mv ++ mb)
      = (op &&& mo) ++ (w &&& mw) ++ (s &&& ms) ++ 0#4 ++ (v &&& mv) ++ (b &&& mb) := by
  have h : (op ++ w ++ s ++ 0#4 ++ v ++ b) &&& (mo ++ mw ++ ms ++ mz ++ mv ++ mb)
      = (op &&& mo) ++ (w &&& mw) ++ (s &&& ms) ++ 0#4 ++ (v &&& mv) ++ (b &&& mb) := by
    simp only [BitVec.and_append, BitVec.zero_and]
  exact h

theorem formatT_and (op f : BitVec 4) (c b : Byte) (mo mf : BitVec 4) (mz mc mb : Byte) :
    formatT op f c b &&& (mo ++ mf ++ mz ++ mc ++ mb)
      = (op &&& mo) ++ (f &&& mf) ++ 0#8 ++ (c &&& mc) ++ (b &&& mb) := by
  have h : (op ++ f ++ 0#8 ++ c ++ b) &&& (mo ++ mf ++ mz ++ mc ++ mb)
      = (op &&& mo) ++ (f &&& mf) ++ 0#8 ++ (c &&& mc) ++ (b &&& mb) := by
    simp only [BitVec.and_append, BitVec.zero_and]
  exact h

theorem formatA_and (op : BitVec 4) (t : BitVec 1) (n v : Byte) (a : Addr) (mo : BitVec 4) (mt : BitVec 1)
    (mz : BitVec 3) (mn mv : Byte) (mz' : BitVec 1) (ma : Addr) :
    formatA op t n v a &&& (mo ++ mt ++ mz ++ mn ++ mv ++ mz' ++ ma)
      = (op &&& mo) ++ (t &&& mt) ++ 0#3 ++ (n &&& mn) ++ (v &&& mv) ++ 0#1 ++ (a &&& ma) := by
  have h : (op ++ t ++ 0#3 ++ n ++ v ++ 0#1 ++ a) &&& (mo ++ mt ++ mz ++ mn ++ mv ++ mz' ++ ma)
      = (op &&& mo) ++ (t &&& mt) ++ 0#3 ++ (n &&& mn) ++ (v &&& mv) ++ 0#1 ++ (a &&& ma) := by
    simp only [BitVec.and_append, BitVec.zero_and]
  exact h

theorem mask (w s : BitVec 4) : Statement (.mask w s) :=
  ⟨⟨"MASK", 0x10000000, 0xF00FFFFF⟩, by simp [opcodeRows], rfl,
    (formatD_and 0x1 w s 0 0 0xF 0 0 0xF 0xFF 0xFF).trans (by simp)⟩

theorem enc (w s : BitVec 4) (v : Byte) : Statement (.enc w s v) :=
  ⟨⟨"ENC", 0x20000000, 0xF00F00FF⟩, by simp [opcodeRows], rfl,
    (formatD_and 0x2 w s v 0 0xF 0 0 0xF 0 0xFF).trans (by simp)⟩

theorem ins (w s : BitVec 4) (v b : Byte) : Statement (.ins w s v b) :=
  ⟨⟨"INS", 0x30000000, 0xF00F0000⟩, by simp [opcodeRows], rfl,
    (formatD_and 0x3 w s v b 0xF 0 0 0xF 0 0).trans (by simp)⟩

theorem ext (w s : BitVec 4) (b : Byte) : Statement (.ext w s b) :=
  ⟨⟨"EXT", 0x40000000, 0xF00FFF00⟩, by simp [opcodeRows], rfl,
    (formatD_and 0x4 w s 0 b 0xF 0 0 0xF 0xFF 0).trans (by simp)⟩

theorem fdec (f : BitVec 4) (b : Byte) : Statement (.fdec f b) :=
  ⟨⟨"FDEC", 0x50000000, 0xF0FFFF00⟩, by simp [opcodeRows], rfl,
    (formatT_and 0x5 f 0 b 0xF 0 0xFF 0xFF 0).trans (by simp)⟩

theorem fins (f : BitVec 4) (c b : Byte) : Statement (.fins f c b) :=
  ⟨⟨"FINS", 0x60000000, 0xF0FF0000⟩, by simp [opcodeRows], rfl,
    (formatT_and 0x6 f c b 0xF 0 0xFF 0 0).trans (by simp)⟩

theorem frsF (a : Addr) : Statement (.frsF a) :=
  ⟨⟨"FRS.F", 0x80000000, 0xFFFFFF80⟩, by simp [opcodeRows], rfl,
    (formatA_and 0x8 0 0 0 a 0xF 1 7 0xFF 0xFF 1 0).trans (by simp)⟩

theorem frbF (a : Addr) (n : Byte) : Statement (.frbF a n) :=
  ⟨⟨"FRB.F", 0x90000000, 0xFF00FF80⟩, by simp [opcodeRows], rfl,
    (formatA_and 0x9 0 n 0 a 0xF 1 7 0 0xFF 1 0).trans (by simp)⟩

theorem fwrF (a : Addr) (v : Byte) : Statement (.fwrF a v) :=
  ⟨⟨"FWR.F", 0xA0000000, 0xFFFF0080⟩, by simp [opcodeRows], rfl,
    (formatA_and 0xA 0 0 v a 0xF 1 7 0xFF 0 1 0).trans (by simp)⟩

theorem drspF : Statement .drspF :=
  ⟨⟨"DRSP.F", 0xB0000000, 0xFFFFFFFF⟩, by simp [opcodeRows], rfl, rfl⟩

theorem frsA (a : Addr) : Statement (.frsA a) :=
  ⟨⟨"FRS.A", 0x88000000, 0xFFFFFF80⟩, by simp [opcodeRows], rfl,
    (formatA_and 0x8 1 0 0 a 0xF 1 7 0xFF 0xFF 1 0).trans (by simp)⟩

theorem frbA (a : Addr) (n : Byte) : Statement (.frbA a n) :=
  ⟨⟨"FRB.A", 0x98000000, 0xFF00FF80⟩, by simp [opcodeRows], rfl,
    (formatA_and 0x9 1 n 0 a 0xF 1 7 0 0xFF 1 0).trans (by simp)⟩

theorem fwrA (a : Addr) (v : Byte) : Statement (.fwrA a v) :=
  ⟨⟨"FWR.A", 0xA8000000, 0xFFFF0080⟩, by simp [opcodeRows], rfl,
    (formatA_and 0xA 1 0 v a 0xF 1 7 0xFF 0 1 0).trans (by simp)⟩

theorem drspA : Statement .drspA :=
  ⟨⟨"DRSP.A", 0xB8000000, 0xFFFFFFFF⟩, by simp [opcodeRows], rfl, rfl⟩

end Sys2Proof.Laws.EncodeRow
end

