-- ==== Sys2Proof/Tests/Slice0.lean ====
section
/-! SUPPORT. The model's own tests: the operand checks, the decoder on words of the spec, one or two steps of each command,
the host's definitions on the spec's examples, and for every statement with hypotheses a witness that meets them.
Expected results are those of 95_test_vectors.md (the section is named), never the model's own answers. -/

namespace Sys2Proof.Tests

open Sys2Proof Sys2Proof.Machine

/-! ## Operand checks: one ill-formed term for each check of WellFormed.lean -/

theorem test_wf_width_zero : (Instr.mask 0 0).wf Config.standard = false := by decide
theorem test_wf_width_nine : (Instr.ext 9 0 0xFF).wf Config.standard = false := by decide
theorem test_wf_shift_eight : (Instr.mask 1 8).wf Config.standard = false := by decide
theorem test_wf_field_over_bit_seven : (Instr.enc 2 7 0).wf Config.standard = false := by decide
theorem test_wf_ins_descriptor : (Instr.ins 4 6 0 0).wf Config.standard = false := by decide
theorem test_wf_enc_value : (Instr.enc 2 4 5).wf Config.standard = false := by decide
theorem test_wf_ins_value : (Instr.ins 2 4 4 0).wf Config.standard = false := by decide
theorem test_wf_fdec_field_type : (Instr.fdec 3 0).wf Config.standard = false := by decide
theorem test_wf_fins_field_type : (Instr.fins 15 0 0).wf Config.standard = false := by decide
theorem test_wf_fins_alias : (Instr.fins 2 2 0).wf Config.standard = false := by decide
theorem test_wf_unnamed_address :
    [Instr.frsF 0x10, .fwrF 0x40 1, .frsA 0x39, .fwrA 0x00 1].all (fun i => !i.wf Config.standard) = true := by decide
theorem test_wf_burst_of_none :
    [Instr.frbF 0x28 0, .frbA 0x28 0].all (fun i => !i.wf Config.standard) = true := by decide
theorem test_wf_burst_leaves_map :
    [Instr.frbF 0x38 2, .frbA 0x0F 2].all (fun i => !i.wf Config.standard) = true := by decide
theorem test_wf_admits :
    [Instr.mask 8 0, .enc 1 7 1, .ins 2 6 3 0xBF, .ext 4 2 0xA9, .fdec 2 0x20, .fins 2 3 0x20, .frsF 0x0F, .frbF 0x20 25,
      .fwrF 0x38 0xFF, .drspF, .frsA 0x0F, .frbA 0x20 25, .fwrA 0x38 0xFF, .drspA].all
      (fun i => i.wf Config.standard) = true := by decide

/-! ## Decoding: a word of each command, its fields written out from 30_encoding.md R82 to R85 -/

/-- Format D: `op` 0001, `width` 0010, `shift` 0110, four zeros, `value`, `byte`. -/
theorem test_decode_mask : decode 0b0001_0010_0110_0000_00000000_00000000 = .ok (.mask 2 6) := by decide
theorem test_decode_enc : decode 0b0010_0011_0101_0000_00000101_00000000 = .ok (.enc 3 5 5) := by decide
theorem test_decode_ins : decode 0b0011_0100_0010_0000_00001010_10000001 = .ok (.ins 4 2 0x0A 0x81) := by decide
theorem test_decode_ext : decode 0b0100_0100_0010_0000_00000000_10101001 = .ok (.ext 4 2 0xA9) := by decide
/-- Format T: `op`, `ftype`, eight zeros, `code`, `byte`. -/
theorem test_decode_fdec : decode 0b0101_0010_00000000_00000000_00100000 = .ok (.fdec 2 0x20) := by decide
theorem test_decode_fins : decode 0b0110_0001_00000000_00000001_10111111 = .ok (.fins 1 1 0xBF) := by decide
/-- Format A: `op`, `t`, three zeros, `n`, `value`, a zero, `addr`. -/
theorem test_decode_frs_f : decode 0b1000_0_000_00000000_00000000_0_0100111 = .ok (.frsF 0x27) := by decide
theorem test_decode_frb_f : decode 0b1001_0_000_00000110_00000000_0_0101000 = .ok (.frbF 0x28 6) := by decide
theorem test_decode_fwr_f : decode 0b1010_0_000_00000000_00001111_0_0100000 = .ok (.fwrF 0x20 0x0F) := by decide
theorem test_decode_frs_a : decode 0b1000_1_000_00000000_00000000_0_0100111 = .ok (.frsA 0x27) := by decide
theorem test_decode_frb_a : decode 0b1001_1_000_00011001_00000000_0_0100000 = .ok (.frbA 0x20 25) := by decide
theorem test_decode_fwr_a : decode 0b1010_1_000_00000000_10111111_0_0100000 = .ok (.fwrA 0x20 0xBF) := by decide
/-- Format R: `op` 1011, `t`, twenty-seven zeros. -/
theorem test_decode_drsp_f : decode 0b1011_0_000000000000000000000000000 = .ok .drspF := by decide
theorem test_decode_drsp_a : decode 0b1011_1_000000000000000000000000000 = .ok .drspA := by decide

/-- 2.8: words with a reserved `op`. -/
theorem test_reserved_ops :
    [0x00000000#32, 0x70000000#32, 0xC0000000#32, 0xF0000000#32].all
      (fun w => decode w == .error .reservedOp) = true := by decide

/-- 2.8: words with a must-be-zero bit set. -/
theorem test_must_be_zero :
    [0x12610000#32, 0x12600001#32, 0x22600201#32, 0x42600100#32, 0x50000100#32, 0x50010000#32, 0x84000027#32,
      0x80010027#32, 0x800000A7#32, 0x90060128#32, 0xA0010F20#32, 0xB0000001#32, 0xB4000000#32].all
      (fun w => decode w == .error .mustBeZero) = true := by decide

theorem test_table_word : decodeTableWord 32 0x98060028 = some (.frbA 0x28 6) := by decide

/-- R111 writes operands in the order of the table; CLRF is INS with value 0 (2.3). -/
theorem test_text : (Instr.fwrF 0x20 0x0F).text [] = "FWR.F 32, 15" := by decide
theorem test_clrf : encode (.clrf 2 4 0xFF) = 0x324000FF := by decide
theorem test_bit : encode (.bit 7 0x81) = 0x41700081 := by decide

/-! ## One step of each command, from reset -/

/-- The result port after one step on a presented word. -/
def portAfter (w : Word) (resp : List Byte) (s : State) : Option ResultPort :=
  match step (present w resp s) with
  | .next t => some t.port
  | .fault _ => none
  | .refused _ => none

/-- The result ports of several words, each presented to the block after reset. -/
def ports (l : List Word) : List (Option ResultPort) := l.map fun w => portAfter w [] .reset

/-- 2.1. -/
theorem test_mask : ports [0x13500000, 0x18000000, 0x14200000] = [some (resPort 0xE0), some (resPort 0xFF), some (resPort 0x3C)] := by
  decide
/-- 2.7. -/
theorem test_mask_descriptor : ports [0x12700000, 0x11800000] = [some (refusalPort 2), some (refusalPort 2)] := by decide
/-- 2.2. -/
theorem test_enc : ports [0x22600200, 0x27107F00] = [some (resPort 0x80), some (resPort 0xFE)] := by decide
/-- 2.7. -/
theorem test_enc_value : ports [0x22400500] = [some (refusalPort 3)] := by decide
/-- 2.3. -/
theorem test_ins : ports [0x3260023F, 0x34200A81] = [some (resPort 0xBF), some (resPort 0xA9)] := by decide
/-- 2.7: descriptor before value. -/
theorem test_ins_descriptor_first : ports [0x3460FF00] = [some (refusalPort 2)] := by decide
/-- 2.4. -/
theorem test_ext : ports [0x426000BF, 0x442000A9] = [some (resPort 2), some (resPort 0x0A)] := by decide
/-- 2.5, the alias: raw 2 names the enumerator of code 3. -/
theorem test_fdec : ports [0x510000BF, 0x52000020, 0x520000CF] = [some (resPort 3), some (resPort 3), some (resPort 0)] := by
  decide
/-- 2.6. -/
theorem test_fins : ports [0x610001BF, 0x62000320] = [some (resPort 0x9F), some (resPort 0x30)] := by decide
/-- 2.7: the alias is no canonical code. -/
theorem test_fins_alias : ports [0x62000200] = [some (refusalPort 3)] := by decide
/-- 2.9. -/
theorem test_frs_f : ports [0x80000027] = [some (xdPort ⟨.duplex, none, [0xA7, 0x00], 2⟩)] := by decide
/-- 2.9. -/
theorem test_frb_f : ports [0x90060028] = [some (xdPort ⟨.duplex, none, [0xE8, 0, 0, 0, 0, 0, 0], 7⟩)] := by decide
/-- 2.11: the start address is checked before the length. -/
theorem test_frb_order : ports [0x90000028, 0x90000010, 0x9002000F] = [some (refusalPort 5), some (refusalPort 4), some (refusalPort 4)] := by
  decide
/-- 2.9. -/
theorem test_fwr_f : ports [0xA0000F20] = [some (xdPort ⟨.duplex, none, [0x20, 0x0F], 2⟩)] := by decide
/-- 2.9 and P1: the dummy byte is dropped. -/
theorem test_drsp_f : portAfter 0xB0000000 [0xEE, 0x3F] .reset = some (payloadPort [0x3F]) := by decide
/-- R106: the empty list has no dummy byte. -/
theorem test_drsp_f_empty : portAfter 0xB0000000 [] .reset = some (refusalPort 5) := by decide
/-- 2.10. -/
theorem test_frs_a : ports [0x88000027] = [some (xdPort ⟨.writeRead, some 0x6A, [0x27], 1⟩)] := by decide
/-- 2.10. -/
theorem test_frb_a : ports [0x98060028] = [some (xdPort ⟨.writeRead, some 0x6A, [0xA8], 6⟩)] := by decide
/-- 2.10. -/
theorem test_fwr_a : ports [0xA800BF20] = [some (xdPort ⟨.writeRead, some 0x6A, [0x20, 0xBF], 0⟩)] := by decide
/-- 2.10. -/
theorem test_drsp_a : portAfter 0xB8000000 [0x5A, 0x81] .reset = some (payloadPort [0x5A, 0x81]) := by decide
/-- 2.8. -/
theorem test_bad_op : ports [0x00000000, 0xB4000000] = [some (refusalPort 1), some (refusalPort 1)] := by decide

/-- The configuration of P6: rate code 3 is unknown. -/
def p6 : State := { State.reset with cfg := { Config.standard with rateDec := ⟨some 0, some 1, some 2, none⟩ } }

/-- P6, halted. -/
def p6Halted : State := { p6 with halted := true }

/-- P6, steps 3 and 5. -/
theorem test_p6_value : portAfter 0x600003FF [] p6 = some (refusalPort 3) := by decide
theorem test_p6_invalid_code : step (present 0x500000FF [] p6) = .next { p6Halted with port := invalidPort .rate 3 } := rfl
/-- P6, step 8: `Halted` comes before `BadOp`. -/
theorem test_p6_halted : portAfter 0x00000000 [] p6Halted = some (refusalPort 9) := by decide
/-- P6, step 9, with strap 1. -/
theorem test_p6_reset : step { p6Halted with inputs := [.reset true] } = .next { p6 with slaveId := 0x6B } := rfl

theorem test_fetch_word : step (State.reset.withFetchWord 32 0x12600000) = .next { State.reset with port := resPort 0xC0 } := rfl

theorem test_idle : step State.reset = .next State.reset := rfl

/-! ## The host's definitions -/

/-- V4 and 2.12. -/
theorem test_axis : [axis 0x34 0x12, axis 0xFF 0xFF, axis 0x00 0x80, axis 0x18 0xFC] = [4660, -1, -32768, -1000] := by decide
/-- V3 and 2.12. -/
theorem test_celsius :
    [(0x00#8), 0xFF, 0x0A, 0x7F, 0x80].map (fun b => celsius (rawTemperature b)) = [25, 26, 15, -102, 153] := by decide
/-- V5. -/
theorem test_status :
    decodeStatus Config.standard.statusBits 0b10000001 = ⟨true, false, false, false, false, false, false, true⟩ := by decide
/-- R34: the boot byte enables power and the three axes; D21 places them. -/
theorem test_first_control :
    decodeFirstControl 0x0F = ⟨0, 0, true, true, true, true⟩ ∧ decodeFirstControl 0b10_11_1_0_0_1 = ⟨2, 3, true, false, false, true⟩ := by
  decide
/-- V6. -/
theorem test_degrees : degrees .dps250 1000 = 35 / 4 ∧ degrees .dps500 1000 = 35 / 2 ∧ degrees .dps2000 1000 = 70 := by
  simp only [degrees, FullScale.multiplier]
  norm_num
/-- 2.12: 8.75 degrees are 7/144 of pi. -/
theorem test_radians : radians (35 / 4) = ⟨7 / 144⟩ := by
  simp only [radians]
  norm_num

/-- A storage device with these registers (address, byte), zero elsewhere, and a dummy byte of 0xEE. -/
def device (l : List (Addr × Byte)) : StorageDevice where
  file := l.foldl (fun f p => f.write p.1 p.2) ⟨Vector.replicate 128 0⟩
  dummy := 0xEE
  readBit := 1

/-- The block after reset, wired to such a device. -/
def wired (l : List (Addr × Byte)) : World := ⟨.reset, .storage (device l), []⟩

/-- The value a host sequence ends with. -/
def valueOf {α : Type} : HostResult α → Option α
  | .done a _ => some a
  | .stopped _ _ => none

/-- The exchanges of a host sequence. -/
def wireOf {α : Type} : HostResult α → List (List Byte)
  | .done _ w => w.wire.map (·.tx)
  | .stopped _ w => w.wire.map (·.tx)

/-- P1. -/
theorem test_p1 : wireOf (setDataRate .framed 2 (wired [(0x20, 0x3F)])) = [[0xA0, 0x00], [0x20, 0xBF]] := by decide
/-- P2. -/
theorem test_p2 :
    valueOf (readGyro .addressed
      (wired [(0x28, 0x34), (0x29, 0x12), (0x2A, 0xFF), (0x2B, 0xFF), (0x2C, 0x00), (0x2D, 0x80)]))
      = some ⟨4660, -1, -32768⟩ := by decide
/-- P4: the status byte between temperature and axes is read and ignored. -/
theorem test_p4 :
    valueOf (readAll .framed
      (wired [(0x26, 0x0A), (0x27, 0x81), (0x28, 0xE8), (0x29, 0x03), (0x2A, 0x18), (0x2B, 0xFC), (0x2C, 0xFF),
        (0x2D, 0x7F)]))
      = some (10, ⟨1000, -1000, 32767⟩) := by decide
/-- P5: one exchange, the flags of V5, and on the result port the answer of the last command, `BIT 0`. -/
theorem test_p5 :
    (match readStatus .framed (wired [(0x27, 0x81)]) with
      | .done f w => decide (f = ⟨true, false, false, false, false, false, false, true⟩
          ∧ w.wire.map (·.tx) = [[0xA7, 0x00]] ∧ w.block.port = resPort 1)
      | .stopped _ _ => false) = true := by decide
/-- P7, case a: no write after a failed read. -/
theorem test_p7 : wireOf (setBandwidth .addressed 1 ⟨.reset, .oracle [.error ⟨0⟩], []⟩) = [[0x20]] := by decide

/-! ## Witnesses: for each statement with hypotheses, states and operands that meet them, at the boundary values of its
clauses. (Statements without hypotheses need none.) -/

/-- The block after reset with inputs to come. -/
def awaiting (l : List Input) : State := { State.reset with inputs := l }

theorem witness_ResetLeavesBlockReady : State.reset.inputs = [] := rfl

theorem witness_ResetClearsHaltedAndSamplesStrap :
    { p6Halted with inputs := [.reset true] }.inputs = Input.reset true :: []
    ∧ (awaiting [.reset false, .command 0x12600000 []]).inputs = Input.reset false :: [.command 0x12600000 []] :=
  ⟨rfl, rfl⟩

theorem witness_StepRunsDecodedInstruction :
    (awaiting [.command 0x12600000 []]).inputs = .command 0x12600000 [] :: []
    ∧ (awaiting [.command 0x12600000 []]).halted = false ∧ decode 0x12600000 = .ok (.mask 2 6) := by decide

theorem witness_EncodeOfDecodeIsSame : decode 0xB8000000 = .ok .drspA := by decide

theorem witness_WordSpellsRowExactly :
    (OpcodeRow.mk "MASK" 0x10000000 0xF00FFFFF ∈ opcodeRows
      ∧ Spells 0x12600000 (OpcodeRow.mk "MASK" 0x10000000 0xF00FFFFF))
    ∧ ∀ row ∈ opcodeRows, ¬Spells 0x12600001 row := by
  unfold Spells
  decide

theorem witness_WordSpellingNothingIsBadOp :
    ((awaiting [.command 0x12600001 []]).inputs = .command 0x12600001 [] :: []
      ∧ (awaiting [.command 0x12600001 []]).halted = false ∧ ∀ row ∈ opcodeRows, ¬Spells 0x12600001 row)
    ∧ ((0x0FFFFFFF : Word).extractLsb' 28 4).toNat ∈ [0x0, 0x7, 0xC, 0xD, 0xE, 0xF]
    ∧ ((0xF0000000 : Word).extractLsb' 28 4).toNat ∈ [0x0, 0x7, 0xC, 0xD, 0xE, 0xF] := by
  unfold Spells
  decide

theorem witness_HaltedRefusesEverything :
    p6Halted.halted = true ∧ { p6Halted with inputs := [.command 0 []] }.inputs = Input.command 0 [] :: [] := by decide

theorem witness_StatusIsFirstCause :
    (awaiting [.command 0x3460FF00 []]).inputs = .command 0x3460FF00 [] :: [] := rfl

/-- FDEC of the unmapped code changes `halted`. -/
theorem witness_CommandsChangeOnlyPortAndHalt :
    exec (.fdec 0 0xFF) p6 = .next { p6Halted with port := invalidPort .rate 3 } ∧ p6Halted.halted ≠ p6.halted :=
  ⟨rfl, by decide⟩

/-- P6 after its step 1. -/
def p6Refused : State := { p6 with port := refusalPort 2 }

/-- Two different states that agree on what the rule names; a command with status 8 and one without. -/
theorem witness_CommandsArePureFunctions :
    (p6.cfg = p6Refused.cfg ∧ p6.slaveId = p6Refused.slaveId ∧ p6.resp = p6Refused.resp
      ∧ p6.halted = p6Refused.halted ∧ p6 ≠ p6Refused)
    ∧ portAfter 0x500000FF [] p6 = some (invalidPort .rate 3) ∧ portAfter 0x500000BF [] p6 = some (resPort 2) := by decide

theorem witness_RefusalLeavesBlockUsable :
    p6.halted = false ∧ step (present 0x3460FF00 [] p6) = .next p6Refused
    ∧ (refusalPort 2).status ≠ 0 ∧ (refusalPort 2).status ≠ 8 := ⟨rfl, rfl, by decide, by decide⟩

/-- The widest field, the highest one-bit field, the lowest. -/
theorem witness_descriptors : State.reset.halted = false ∧ WfDesc 8 0 ∧ WfDesc 1 7 ∧ WfDesc 1 0 := by
  unfold WfDesc
  decide

theorem witness_MaskHasFieldBits : State.reset.halted = false ∧ WfDesc 8 0 ∧ WfDesc 1 7 := by unfold WfDesc; decide

theorem witness_ExtTakesFieldValue : State.reset.halted = false ∧ WfDesc 8 0 ∧ WfDesc 1 7 := by unfold WfDesc; decide

/-- The largest value of the widest field and of a one-bit field; the hypotheses of ENC, INS and R140, R141, R143. -/
theorem witness_EncPlacesValueInField :
    State.reset.halted = false ∧ (WfDesc 8 0 ∧ (0xFF : Byte).toNat < 2 ^ (8 : BitVec 4).toNat)
    ∧ WfDesc 1 7 ∧ (1 : Byte).toNat < 2 ^ (1 : BitVec 4).toNat := by unfold WfDesc; decide

theorem witness_InsReplacesFieldOnly :
    State.reset.halted = false ∧ WfDesc 2 6 ∧ (3 : Byte).toNat < 2 ^ (2 : BitVec 4).toNat := by unfold WfDesc; decide

theorem witness_EncodedValueExtractsBack :
    State.reset.halted = false ∧ WfDesc 3 5 ∧ (7 : Byte).toNat < 2 ^ (3 : BitVec 4).toNat := by unfold WfDesc; decide

theorem witness_InsertIsConfinedToMask :
    State.reset.halted = false ∧ WfDesc 7 1 ∧ (0x7F : Byte).toNat < 2 ^ (7 : BitVec 4).toNat := by unfold WfDesc; decide

theorem witness_InsertedValueExtractsBack :
    State.reset.halted = false ∧ WfDesc 4 4 ∧ (0x0F : Byte).toNat < 2 ^ (4 : BitVec 4).toNat := by unfold WfDesc; decide

theorem witness_ReinsertionChangesNothing :
    State.reset.halted = false ∧ WfDesc 2 4 ∧ (0 : Byte).toNat < 2 ^ (2 : BitVec 4).toNat
    ∧ (3 : Byte).toNat < 2 ^ (2 : BitVec 4).toNat := by unfold WfDesc; decide

theorem witness_FdecNamesEnumerator :
    State.reset.halted = false
    ∧ (State.reset.cfg.decTable .fs).lookup (((0x20 : Byte) >>> FieldType.fs.shift) &&& 3) = some 3
    ∧ (State.reset.cfg.decTable .rate).lookup (((0xFF : Byte) >>> FieldType.rate.shift) &&& 3) = some 3 := by decide

theorem witness_FdecUnmappedCodeHalts :
    p6.halted = false
    ∧ (p6.cfg.decTable .rate).lookup (((0xFF : Byte) >>> FieldType.rate.shift) &&& 3) = none := by decide

theorem canonical_standard :
    Canonical Config.standard .rate 3 ∧ Canonical Config.standard .bw 0 ∧ Canonical Config.standard .fs 3 :=
  ⟨⟨3, by decide⟩, ⟨0, by decide⟩, ⟨2, by decide⟩⟩

theorem witness_FinsInsertsCanonicalCode : State.reset.halted = false ∧ Canonical State.reset.cfg .rate 3
    ∧ Canonical State.reset.cfg .bw 0 ∧ Canonical State.reset.cfg .fs 3 := ⟨rfl, canonical_standard⟩

/-- The masks of RATE and BW are disjoint; so are those of a one-bit field at each end. -/
theorem witness_DisjointFieldsAreIsolated :
    ((3 : Byte).toNat < 2 ^ (2 : BitVec 4).toNat ∧ AnswersRes (.mask 2 6) .reset 0xC0 ∧ AnswersRes (.mask 2 4) .reset 0x30
      ∧ (0xC0 : Byte) &&& 0x30 = 0)
    ∧ AnswersRes (.mask 1 7) .reset 0x80 ∧ AnswersRes (.mask 1 0) .reset 0x01 ∧ (0x80 : Byte) &&& 0x01 = 0 :=
  ⟨⟨by decide, rfl, rfl, by decide⟩, rfl, rfl, by decide⟩

theorem witness_DisjointInsertsCommute :
    (3 : Byte).toNat < 2 ^ (2 : BitVec 4).toNat ∧ (1 : Byte).toNat < 2 ^ (2 : BitVec 4).toNat
    ∧ AnswersRes (.mask 2 6) .reset 0xC0 ∧ AnswersRes (.mask 2 4) .reset 0x30 ∧ (0xC0 : Byte) &&& 0x30 = 0 :=
  ⟨by decide, by decide, rfl, rfl, by decide⟩

theorem witness_FullWidthFieldIsWholeByte : State.reset.halted = false := rfl

theorem witness_TypedRoundTrip :
    (State.reset.halted = false ∧ State.reset.cfg.wf = true ∧ Canonical State.reset.cfg .rate 3)
    ∧ ((0x20 : Byte) >>> 4) &&& 3 = 2 := ⟨⟨rfl, by decide, ⟨3, by decide⟩⟩, by decide⟩

theorem witness_AliasIsAcceptedOnlyOnDecode :
    State.reset.halted = false ∧ ((0x20 : Byte) >>> 4) &&& 3 = 2 ∧ ((0x30 : Byte) >>> 4) &&& 3 = 3 := by decide

/-- One descriptor for each of the four ways to be illegal, none of them illegal otherwise where that is possible. -/
theorem witness_IllegalDescriptorIsRefused :
    State.reset.halted = false ∧ (0 : BitVec 4).toNat = 0 ∧ 8 < (9 : BitVec 4).toNat ∧ 7 < (8 : BitVec 4).toNat
    ∧ 8 < (7 : BitVec 4).toNat + (2 : BitVec 4).toNat := by decide

theorem witness_ReservedFieldTypeIsRefused :
    State.reset.halted = false ∧ 3 ≤ (3 : BitVec 4).toNat ∧ 3 ≤ (15 : BitVec 4).toNat := by decide

theorem witness_IllegalValueIsRefused :
    (State.reset.halted = false ∧ WfDesc 2 4 ∧ 2 ^ (2 : BitVec 4).toNat ≤ (4 : Byte).toNat)
    ∧ ¬Canonical State.reset.cfg .rate 4 ∧ ¬Canonical p6.cfg .rate 3 := by
  refine ⟨⟨rfl, by unfold WfDesc; decide, by decide⟩, ?_, ?_⟩ <;> rw [Canonical, ← DecodeTable.mem_codes] <;> decide

theorem witness_UnnamedAddressIsRefused :
    State.reset.halted = false ∧ (¬Named State.reset.cfg 0x10 ∧ ¬Named State.reset.cfg 0x39)
    ∧ ¬BurstNamed State.reset.cfg 0x38 2
    ∧ Config.standard.wf = true ∧ 0x38 < 0x39 := by
  simp only [← Config.named_iff, ← Config.burstNamed_iff]
  decide

theorem witness_IllegalLengthIsRefused :
    State.reset.halted = false ∧ Named State.reset.cfg 0x0F ∧ Named State.reset.cfg 0x38 ∧ State.reset.resp = [] := by
  simp only [← Config.named_iff]
  decide

/-- The lowest and the highest named address; the longest burst of the default map; the polarity of D10. These meet the
hypotheses of the six frame statements. -/
theorem witness_frames :
    State.reset.halted = false ∧ Named State.reset.cfg (0x0F : Addr).toNat ∧ Named State.reset.cfg (0x38 : Addr).toNat
    ∧ (1 ≤ (1 : Byte).toNat ∧ BurstNamed State.reset.cfg 0x0F (1 : Byte).toNat)
    ∧ (1 ≤ (25 : Byte).toNat ∧ BurstNamed State.reset.cfg 0x20 (25 : Byte).toNat) ∧ State.reset.cfg.rwRead = 1 := by
  simp only [← Config.named_iff, ← Config.burstNamed_iff]
  decide

theorem witness_FramedSingleReadFrame :
    State.reset.halted = false ∧ Named State.reset.cfg (0x0F : Addr).toNat ∧ State.reset.cfg.rwRead = 1 :=
  ⟨rfl, witness_frames.2.1, rfl⟩

theorem witness_FramedBurstReadFrame :
    State.reset.halted = false ∧ 1 ≤ (25 : Byte).toNat ∧ BurstNamed State.reset.cfg 0x20 (25 : Byte).toNat
    ∧ State.reset.cfg.rwRead = 1 := ⟨rfl, witness_frames.2.2.2.2.1.1, witness_frames.2.2.2.2.1.2, rfl⟩

theorem witness_FramedSingleWriteFrame :
    State.reset.halted = false ∧ Named State.reset.cfg (0x38 : Addr).toNat ∧ State.reset.cfg.rwRead = 1 :=
  ⟨rfl, witness_frames.2.2.1, rfl⟩

theorem witness_AddressedSingleReadFrame :
    State.reset.halted = false ∧ Named State.reset.cfg (0x0F : Addr).toNat := ⟨rfl, witness_frames.2.1⟩

theorem witness_AddressedBurstReadFrame :
    State.reset.halted = false ∧ 1 ≤ (1 : Byte).toNat ∧ BurstNamed State.reset.cfg 0x0F (1 : Byte).toNat :=
  ⟨rfl, witness_frames.2.2.2.1⟩

theorem witness_AddressedSingleWriteFrame :
    State.reset.halted = false ∧ Named State.reset.cfg (0x38 : Addr).toNat := ⟨rfl, witness_frames.2.2.1⟩

/-- A frame of each of the three framed-bus commands. -/
theorem witness_HeaderBitsAreNotAddressBits :
    State.reset.halted = false ∧ State.reset.cfg.wf = true
    ∧ exec (.frsF 0x0F) .reset = .next { State.reset with port := xdPort ⟨.duplex, none, [0x8F, 0], 2⟩ }
    ∧ exec (.frbF 0x38 1) .reset = .next { State.reset with port := xdPort ⟨.duplex, none, [0xF8, 0], 2⟩ }
    ∧ exec (.fwrF 0x38 0xFF) .reset = .next { State.reset with port := xdPort ⟨.duplex, none, [0x38, 0xFF], 2⟩ } :=
  ⟨rfl, by decide, rfl, rfl, rfl⟩

theorem witness_FramedResponseDropsDummy : State.reset.halted = false := rfl

theorem witness_AddressedResponseIsPayload : State.reset.halted = false := rfl

/-- A refused block with a command to come meets the invariant, and steps. -/
theorem witness_StepKeepsInvariant :
    Inv { awaiting [.command 0x12600000 []] with port := refusalPort 1 }
    ∧ step { awaiting [.command 0x12600000 []] with port := refusalPort 1 }
        = .next { State.reset with port := resPort 0xC0 } := by
  refine ⟨⟨by decide, .inl rfl, ⟨by decide, by decide, by decide, by decide, by decide, fun x h => by cases h⟩,
    by decide⟩, rfl⟩

theorem witness_HaltIsPermanentUntilReset :
    p6Halted.halted = true ∧ NoReset [Input.command 0x12600000 []] ∧ NoReset p6Halted.inputs ∧ 0 < 1
    ∧ [Input.command 0x12600000 []] ≠ [] := by
  refine ⟨rfl, fun sa0 => ?_, fun sa0 => ?_, by decide, by decide⟩ <;> simp [p6Halted, p6, State.reset]

theorem witness_TotalTablesNeverHalt : State.reset.cfg.decTotal = true ∧ State.reset.halted = false := by decide

/-- The lowest and the highest bit; a block that is not halted; P5's read on an oracle. -/
theorem witness_StatusFlagsAreBits :
    State.reset.halted = false ∧ (wired []).block.halted = false
    ∧ State.reset.cfg.addrOf .statusReg = some 0x27
    ∧ ∃ w, readByte .framed 0x27 ⟨.reset, .oracle [.bytes [0xEE, 0x81]], []⟩ = .done 0x81 w :=
  ⟨rfl, rfl, by decide, _, rfl⟩

/-- A world that meets `Ready` and `StoresIn`: the block after reset, wired to a storage device. -/
theorem wired_ready (l : List (Addr × Byte)) : Ready (wired l) ∧ StoresIn (wired l) (device l) :=
  ⟨⟨rfl, standard_wf⟩, rfl, rfl⟩

theorem witness_SingleReadReturnsRegister :
    Ready (wired []) ∧ StoresIn (wired []) (device []) ∧ Named (wired []).block.cfg (0x0F : Addr).toNat :=
  ⟨(wired_ready []).1, (wired_ready []).2, witness_frames.2.1⟩

theorem witness_BurstReadReturnsRegisters :
    Ready (wired []) ∧ StoresIn (wired []) (device []) ∧ 1 ≤ (25 : Byte).toNat
    ∧ BurstNamed (wired []).block.cfg 0x20 (25 : Byte).toNat :=
  ⟨(wired_ready []).1, (wired_ready []).2, witness_frames.2.2.2.2.1⟩

theorem witness_WriteStoresRegister :
    Ready (wired []) ∧ StoresIn (wired []) (device []) ∧ Named (wired []).block.cfg (0x38 : Addr).toNat :=
  ⟨(wired_ready []).1, (wired_ready []).2, witness_frames.2.2.1⟩

/-- V2, on the device: RATE is set where BW reads 3. -/
theorem witness_SetterKeepsOtherFields :
    Ready (wired [(0x20, 0xBF)]) ∧ StoresIn (wired [(0x20, 0xBF)]) (device [(0x20, 0xBF)]) ∧ FieldType.rate ≠ .bw
    ∧ Canonical (wired [(0x20, 0xBF)]).block.cfg .rate 0
    ∧ ∃ w, getField .framed .bw (wired [(0x20, 0xBF)]) = .done 3 w :=
  ⟨(wired_ready _).1, (wired_ready _).2, by decide, ⟨0, by decide⟩, _, rfl⟩

/-- P7, case a. -/
theorem witness_FailedReadStopsSetter :
    let w : World := ⟨.reset, .oracle [.error ⟨0⟩], []⟩
    Ready w ∧ w.far = .oracle (.error ⟨0⟩ :: []) ∧ w.block.cfg.hostReg .bw = some 0x20
    ∧ w.block.cfg.hostReg .fs = some 0x23 := ⟨⟨rfl, standard_wf⟩, rfl, by decide, by decide⟩

/-- An identity that needs the other strap level, and one that no level selects. -/
theorem witness_ConstructOverwritesFirstControl :
    (Ready (wired [(0x20, 0xFF)]) ∧ StoresIn (wired [(0x20, 0xFF)]) (device [(0x20, 0xFF)])
      ∧ (wired [(0x20, 0xFF)]).block.cfg.addrOf .ctrlReg1 = some 0x20
      ∧ ((0x6B : Addr) = (wired [(0x20, 0xFF)]).block.cfg.slaveId0 ∨ (0x6B : Addr) = (wired [(0x20, 0xFF)]).block.cfg.slaveId1))
    ∧ (0x6C : Addr) ≠ (wired []).block.cfg.slaveId0 ∧ (0x6C : Addr) ≠ (wired []).block.cfg.slaveId1 :=
  ⟨⟨(wired_ready _).1, (wired_ready _).2, by decide, .inr rfl⟩, by decide, by decide⟩

/-- One exchange, one read of each kind that ends, and an answer that is too short. -/
theorem witness_ExchangesReturnAllTheirBytes :
    (∃ w, xfer ⟨.writeRead, some 0x6A, [0x27], 1⟩ ⟨.reset, .oracle [.bytes [0x81]], []⟩ = .done [0x81] w)
    ∧ (∃ w, memReadSingle .framed 0x27 ⟨.reset, .oracle [.bytes [0xEE, 0x81]], []⟩ = .done [0x81] w)
    ∧ (∃ w, memReadBurst .addressed 0x28 2 ⟨.reset, .oracle [.bytes [0x34, 0x12]], []⟩ = .done [0x34, 0x12] w)
    ∧ ([] : List Byte).length ≠ (Exchange.mk .writeRead (some 0x6A) [0x27] 1).rxLen :=
  ⟨⟨_, rfl⟩, ⟨_, rfl⟩, ⟨_, rfl⟩, by decide⟩

theorem witness_ReadGyroReturnsAxes :
    Ready (wired []) ∧ StoresIn (wired []) (device []) ∧ (wired []).block.cfg.addrOf .outXL = some 0x28
    ∧ (List.range 6).all (fun k => (device []).file.read (0x28 + k) == some 0) = true :=
  ⟨(wired_ready []).1, (wired_ready []).2, by decide, by decide⟩

theorem witness_ReadAllReturnsTemperatureAndAxes :
    Ready (wired []) ∧ StoresIn (wired []) (device []) ∧ (wired []).block.cfg.addrOf .outTemp = some 0x26
    ∧ (wired []).block.cfg.addrOf .outXL = some 0x28 ∧ (0x26 : Addr).toNat < (0x28 : Addr).toNat
    ∧ BurstNamed (wired []).block.cfg 0x26 ((0x28 : Addr).toNat - (0x26 : Addr).toNat + 6)
    ∧ (device []).file.read 0x26 = some 0
    ∧ (List.range 6).all (fun k => (device []).file.read (0x28 + k) == some 0) = true := by
  refine ⟨(wired_ready []).1, (wired_ready []).2, by decide, by decide, by decide, ?_, by decide, by decide⟩
  rw [← Config.burstNamed_iff]
  decide

end Sys2Proof.Tests
end

section
/-! PROOFS. The block right after reset (10_state.md R40 to R42). -/

namespace Sys2Proof.Machine

/-- 10_state.md R42: the block executes nothing until the host presents a command. -/
theorem step_of_inputs_nil {s : State} (h : s.inputs = []) : step s = .next s := by
  simp only [step, takeInput, h]

/-- 10_state.md R41, at the strap level of the model's reset state. -/
theorem reset_slaveId : State.reset.slaveId = State.reset.cfg.strapId false := rfl

/-- Settles O1: `halted` is the value reset gives it, the strap level is the one reset samples, and a step with no input
to take is the idle one. -/
theorem resetLeavesBlockReady : Obligations.ResetLeavesBlockReady :=
  ⟨rfl, ⟨false, reset_slaveId⟩, fun _ hnone => step_of_inputs_nil hnone⟩

end Sys2Proof.Machine
end

section
/-! PROOFS. What a command's answer depends on, and what issuing the command again answers (20_memory.md R62). -/

namespace Sys2Proof.Machine

/-- What an outcome puts on the result port owes nothing to the state it is reported in. -/
theorem report_port_eq (o : CmdOutcome) (s s' : State) : (report o s).port = (report o s').port := by
  cases o <;> rfl

theorem report_halted_congr (o : CmdOutcome) {s s' : State} (h : s.halted = s'.halted) :
    (report o s).halted = (report o s').halted := by
  cases o with
  | ok r => exact h
  | refuse r => exact h
  | raise e => rfl

/-- 20_memory.md R62: the configuration, SLAVE_ID, the response list and `halted` determine what a command answers. -/
theorem exec_answer_congr {i : Instr} {s s' t t' : State} (hcfg : s.cfg = s'.cfg) (hid : s.slaveId = s'.slaveId)
    (hresp : s.resp = s'.resp) (hhalt : s.halted = s'.halted) (ht : exec i s = .next t)
    (ht' : exec i s' = .next t') : t.port = t'.port ∧ t.halted = t'.halted := by
  cases hs : s.halted with
  | true =>
    rw [exec_of_halted hs] at ht
    rw [exec_of_halted (hhalt ▸ hs)] at ht'
    cases ht
    cases ht'
    exact ⟨rfl, hhalt⟩
  | false =>
    rw [exec_of_not_halted hs, cmdOutcome_congr i hcfg hid hresp] at ht
    rw [exec_of_not_halted (hhalt ▸ hs)] at ht'
    cases ht
    cases ht'
    exact ⟨report_port_eq _ s s', report_halted_congr _ hhalt⟩

/-- No refusal has the status of InvalidCode. -/
theorem Reason.status_ne_invalidCode (r : Reason) : r.status ≠ 8 := by
  cases r <;> decide

/-- A command issued again leaves the whole state as it stands, unless it raised InvalidCode, which has halted the
block. -/
theorem exec_again {i : Instr} {s t : State} (h : exec i s = .next t) :
    (t.port.status ≠ 8 ∧ exec i t = .next t) ∨ (t.port.status = 8 ∧ exec i t = .next (refuse .halted t)) := by
  cases hs : s.halted with
  | true =>
    rw [exec_of_halted hs] at h
    cases h
    exact .inl ⟨Reason.status_ne_invalidCode .halted, exec_of_halted hs⟩
  | false =>
    rw [exec_of_not_halted hs] at h
    cases h
    have hsame : cmdOutcome (report (cmdOutcome s i) s) i = cmdOutcome s i :=
      cmdOutcome_congr i (report_cfg s _) (report_slaveId s _) (report_resp s _)
    have hagain (hlive : (report (cmdOutcome s i) s).halted = false) :
        exec i (report (cmdOutcome s i) s) = .next (report (cmdOutcome s i) (report (cmdOutcome s i) s)) := by
      rw [exec_of_not_halted hlive, hsame]
    cases ho : cmdOutcome s i with
    | ok r =>
      rw [ho] at hagain
      exact .inl ⟨by simp [report, statusOk], hagain hs⟩
    | refuse r =>
      rw [ho] at hagain
      exact .inl ⟨r.status_ne_invalidCode, hagain hs⟩
    | raise e => exact .inr ⟨rfl, exec_of_halted rfl⟩

/-- Settles O12: states that agree on what the rule names answer alike, and a second issue repeats the first but for
InvalidCode. -/
theorem commandsArePureFunctions : Obligations.CommandsArePureFunctions := by
  refine ⟨fun i s s' hcfg hid hresp hhalt => ?_, fun i s => ?_⟩
  · obtain ⟨t, ht⟩ := exec_next i s
    obtain ⟨t', ht'⟩ := exec_next i s'
    exact ⟨t, t', ht, ht', exec_answer_congr hcfg hid hresp hhalt ht ht'⟩
  · obtain ⟨t, ht⟩ := exec_next i s
    obtain ⟨hne, hu⟩ | ⟨heq, hu⟩ := exec_again ht
    · exact ⟨t, t, ht, hu, fun _ => rfl, fun heq => absurd heq hne⟩
    · exact ⟨t, refuse .halted t, ht, hu, fun hne => absurd heq hne, fun _ => rfl⟩

end Sys2Proof.Machine
end

section
/-! PROOFS. Addresses outside REGMAP (20_memory.md R64, 30_encoding.md R105): what the two admission checks that the
buses share answer to them. -/

namespace Sys2Proof.Machine

variable {cfg : Config} {a : Addr}

theorem withAddress_of_not_named (h : ¬Named cfg a.toNat) (o : CmdOutcome) :
    withAddress cfg a o = .refuse .badAddress :=
  if_neg (mt Config.named_iff.1 h)

theorem withBurst_of_not_named (h : ¬Named cfg a.toNat) (n : Byte) (o : CmdOutcome) :
    withBurst cfg a n o = .refuse .badAddress :=
  withAddress_of_not_named h _

/-- A burst that leaves the map is not empty, so wherever it starts, the length check does not come before the refusal
for its addresses. -/
theorem withBurst_of_not_burstNamed {n : Byte} (h : ¬BurstNamed cfg a n.toNat) (o : CmdOutcome) :
    withBurst cfg a n o = .refuse .badAddress := by
  have hlen : n.toNat ≠ 0 := fun h0 => h fun k hk => by omega
  by_cases hstart : Named cfg a.toNat
  · rw [withBurst, withAddress, if_pos (Config.named_iff.2 hstart), if_neg hlen, if_neg (mt Config.burstNamed_iff.1 h)]
  · exact withBurst_of_not_named hstart n o

theorem refusedWith_badAddress {i : Instr} {s : State} (hs : s.halted = false)
    (h : cmdOutcome s i = .refuse .badAddress) : RefusedWith i s 4 :=
  refusedWith_of_refuse hs h

/-- Settles O33: the shared checks refuse the address and the burst, and a well-formed map ends at ADDR_MAX. -/
theorem unnamedAddressIsRefused : Obligations.UnnamedAddressIsRefused := by
  refine ⟨fun a n v st hs ha => ?_, fun a n st hs hb => ?_, fun cfg a hwf hgt ha => ?_⟩
  · have single := withAddress_of_not_named ha
    have burst := withBurst_of_not_named ha n
    exact ⟨refusedWith_badAddress hs (single _), refusedWith_badAddress hs (burst _),
      refusedWith_badAddress hs (single _), refusedWith_badAddress hs (single _),
      refusedWith_badAddress hs (burst _), refusedWith_badAddress hs (single _)⟩
  · have burst := withBurst_of_not_burstNamed hb
    exact ⟨refusedWith_badAddress hs (burst _), refusedWith_badAddress hs (burst _)⟩
  · exact absurd (Config.named_range hwf ha).2 (Nat.not_le_of_lt hgt)

end Sys2Proof.Machine
end

section
/-! PROOFS. Illegal operands of the codec (30_encoding.md R102 to R104, R107): what its three operand checks answer, and
from that what the commands answer. -/

namespace Sys2Proof.Machine

/-! ## The operand checks -/

theorem withDesc_of_wfDesc {w s : BitVec 4} (h : WfDesc w s) (o : CmdOutcome) : withDesc w s o = o :=
  if_pos ((wfDesc_iff _ _).2 h)

theorem withDesc_of_not_wfDesc {w s : BitVec 4} (h : ¬WfDesc w s) (o : CmdOutcome) :
    withDesc w s o = .refuse .badDescriptor :=
  if_neg (mt (wfDesc_iff _ _).1 h)

theorem withValue_of_two_pow_le {w : BitVec 4} {v : Byte} (h : 2 ^ w.toNat ≤ v.toNat) (o : CmdOutcome) :
    withValue w v o = .refuse .valueRange :=
  if_pos h

/-- A descriptor that passes leaves the value check of ENC and INS to answer. -/
theorem withDesc_withValue_of_two_pow_le {w s : BitVec 4} {v : Byte} (hw : WfDesc w s) (hv : 2 ^ w.toNat ≤ v.toNat)
    (o : CmdOutcome) : withDesc w s (withValue w v o) = .refuse .valueRange := by
  rw [withDesc_of_wfDesc hw, withValue_of_two_pow_le hv]

theorem withField_code (ft : FieldType) (o : FieldType → CmdOutcome) : withField ft.code o = o ft := by
  rw [withField, FieldType.ofCode_code]

theorem withField_of_reserved {f : BitVec 4} (h : 3 ≤ f.toNat) (o : FieldType → CmdOutcome) :
    withField f o = .refuse .badDescriptor := by
  rw [withField, FieldType.ofCode_eq_none.2 h]

/-! ## FDEC and FINS of a field type -/

theorem mem_codes_iff_canonical {cfg : Config} {ft : FieldType} {c : Byte} :
    c ∈ (cfg.decTable ft).codes ↔ Canonical cfg ft c :=
  DecodeTable.mem_codes

theorem fdecOutcome_of_lookup_some {cfg : Config} {ft : FieldType} {b c : Byte}
    (h : (cfg.decTable ft).lookup (fieldExtracted ft.width ft.shift b) = some c) :
    fdecOutcome cfg ft.code b = .ok (.res c) := by
  rw [fdecOutcome, withField_code]
  simp only [h]

theorem finsOutcome_of_canonical {cfg : Config} {ft : FieldType} {c : Byte} (h : Canonical cfg ft c) (b : Byte) :
    finsOutcome cfg ft.code c b = .ok (.res (fieldInserted ft.width ft.shift c b)) := by
  rw [finsOutcome, withField_code, if_pos (mem_codes_iff_canonical.2 h)]

theorem finsOutcome_of_not_canonical {cfg : Config} {ft : FieldType} {c : Byte} (h : ¬Canonical cfg ft c) (b : Byte) :
    finsOutcome cfg ft.code c b = .refuse .valueRange := by
  rw [finsOutcome, withField_code, if_neg (mt mem_codes_iff_canonical.1 h)]

/-! ## What the block answers -/

theorem refusedWith_badDescriptor {i : Instr} {s : State} (hs : s.halted = false)
    (h : cmdOutcome s i = .refuse .badDescriptor) : RefusedWith i s 2 :=
  refusedWith_of_refuse hs h

theorem refusedWith_valueRange {i : Instr} {s : State} (hs : s.halted = false)
    (h : cmdOutcome s i = .refuse .valueRange) : RefusedWith i s 3 :=
  refusedWith_of_refuse hs h

/-- Settles O30: each way to be illegal fails the one descriptor check that the four commands share. -/
theorem illegalDescriptorIsRefused : Obligations.IllegalDescriptorIsRefused := by
  intro w s v b st hs hillegal
  have hw : ¬WfDesc w s := by
    rintro ⟨hpos, hwidth, hshift, hsum⟩
    omega
  have refused := withDesc_of_not_wfDesc hw
  exact ⟨refusedWith_badDescriptor hs (refused _), refusedWith_badDescriptor hs (refused _),
    refusedWith_badDescriptor hs (refused _), refusedWith_badDescriptor hs (refused _)⟩

/-- Settles O31: both commands begin with the field type check. -/
theorem reservedFieldTypeIsRefused : Obligations.ReservedFieldTypeIsRefused := by
  intro f c b st hs hf
  have refused := withField_of_reserved hf
  exact ⟨refusedWith_badDescriptor hs (refused _), refusedWith_badDescriptor hs (refused _)⟩

/-- Settles O32: ENC and INS share the value check, and FINS looks its code up among the canonical ones. -/
theorem illegalValueIsRefused : Obligations.IllegalValueIsRefused := by
  refine ⟨fun w s v b st hs hw hv => ?_, fun ft c b st hs hc => ?_⟩
  · have refused := withDesc_withValue_of_two_pow_le hw hv
    exact ⟨refusedWith_valueRange hs (refused _), refusedWith_valueRange hs (refused _)⟩
  · exact refusedWith_valueRange hs (finsOutcome_of_not_canonical hc b)

/-! ## The full-scale alias -/

/-- 40_bitfield_codec.md R143: what is inserted into a field is what is then extracted from it. -/
theorem fieldExtracted_fieldInserted {w s : Nat} {v : Byte} (hfit : s + w ≤ 8) (hv : v.toNat < 2 ^ w) (cur : Byte) :
    fieldExtracted w s (fieldInserted w s v cur) = v := by
  refine BitVec.eq_of_getLsbD_eq fun k hk => ?_
  rw [getLsbD_fieldExtracted, getLsbD_fieldInserted]
  by_cases hkw : k < w
  · rw [if_pos ⟨by omega, by omega, by omega⟩, Nat.add_sub_cancel_left]
    simp [hk, hkw]
  · simp [hkw, getLsbD_of_lt_two_pow hv (Nat.le_of_not_lt hkw)]

/-- 10_state.md R32: no enumerator of the full scale has 2 as its canonical code, under any configuration. -/
theorem not_canonical_fs_two (cfg : Config) : ¬Canonical cfg .fs 2 :=
  have habsent : (2 : Byte) ∉ fsDec.codes := by decide
  mt mem_codes_iff_canonical.2 habsent

/-- 10_state.md R32: 3 is the canonical code of `Dps2000`, under any configuration. -/
theorem canonical_fs_three (cfg : Config) : Canonical cfg .fs 3 :=
  ⟨3, rfl⟩

/-- 10_state.md R32: the alias and the documented code of `Dps2000` decode alike. -/
theorem fsDec_lookup_dps2000 {raw : Byte} (h : raw = 2 ∨ raw = 3) : fsDec.lookup raw = some 3 := by
  obtain rfl | rfl := h <;> rfl

/-- Settles O29: the table of the full scale has 2 among its raw codes and not among its canonical ones, and an inserted
code extracts back. -/
theorem aliasIsAcceptedOnlyOnDecode : Obligations.AliasIsAcceptedOnlyOnDecode := by
  intro b st hs
  refine ⟨fun hraw => ?_, ?_, fieldInserted FieldType.fs.width FieldType.fs.shift 3 b, ?_, ?_⟩
  · exact answersRes_of_ok hs (fdecOutcome_of_lookup_some (ft := .fs) (fsDec_lookup_dps2000 hraw))
  · exact refusedWith_valueRange hs (finsOutcome_of_not_canonical (not_canonical_fs_two st.cfg) b)
  · exact answersRes_of_ok hs (finsOutcome_of_canonical (canonical_fs_three st.cfg) b)
  · exact fieldExtracted_fieldInserted (by decide) (by decide) b

end Sys2Proof.Machine
end

section
/-! PROOFS. Illegal lengths (30_encoding.md R106): the burst check after its start address, and DRSP.F. -/

namespace Sys2Proof.Machine

variable {cfg : Config} {a : Addr}

theorem withAddress_of_named (h : Named cfg a.toNat) (o : CmdOutcome) : withAddress cfg a o = o :=
  if_pos (Config.named_iff.2 h)

theorem withBurst_zero_of_named (h : Named cfg a.toNat) (o : CmdOutcome) :
    withBurst cfg a 0 o = .refuse .badLength := by
  rw [withBurst, withAddress_of_named h]
  rfl

theorem refusedWith_badLength {i : Instr} {s : State} (hs : s.halted = false)
    (h : cmdOutcome s i = .refuse .badLength) : RefusedWith i s 5 :=
  refusedWith_of_refuse hs h

/-- Settles O34: the two buses share the length check, which a named start address reaches; DRSP.F has no dummy byte to
drop from the empty list. -/
theorem illegalLengthIsRefused : Obligations.IllegalLengthIsRefused := by
  refine ⟨fun a st hs ha => ?_, fun st hs hresp => ?_⟩
  · have refused := withBurst_zero_of_named ha
    exact ⟨refusedWith_badLength hs (refused _), refusedWith_badLength hs (refused _)⟩
  · exact refusedWith_badLength hs (congrArg drspFOutcome hresp)

end Sys2Proof.Machine
end

section
/-! PROOFS. The laws of the codec formulas (40_bitfield_codec.md R140 to R147), before any command runs. -/

namespace Sys2Proof.Machine

/-! ## One field -/

/-- 40_bitfield_codec.md R140: to encode is to insert into 0x00. -/
theorem fieldInserted_zero (w s : Nat) (v : Byte) : fieldInserted w s v 0 = fieldEncoded w s v := by
  simp [fieldInserted]

/-- 40_bitfield_codec.md R140: an encoded value extracts back because an inserted one does. -/
theorem fieldExtracted_fieldEncoded {w s : Nat} {v : Byte} (hfit : s + w ≤ 8) (hv : v.toNat < 2 ^ w) :
    fieldExtracted w s (fieldEncoded w s v) = v := by
  rw [← fieldInserted_zero, fieldExtracted_fieldInserted hfit hv]

/-- 40_bitfield_codec.md R141: outside the mask an insertion leaves the byte as it was. -/
theorem fieldInserted_and_not_fieldMask (w s : Nat) (v cur : Byte) :
    fieldInserted w s v cur &&& ~~~fieldMask w s = cur &&& ~~~fieldMask w s := by
  refine BitVec.eq_of_getLsbD_eq fun k hk => ?_
  rw [BitVec.getLsbD_and, BitVec.getLsbD_and, BitVec.getLsbD_not, getLsbD_fieldMask, getLsbD_fieldInserted]
  by_cases hin : s ≤ k ∧ k < s + w
  · simp [hk, hin]
  · rw [if_neg fun h => hin h.2]

/-- 40_bitfield_codec.md R141: inside the mask an insertion is the encoded value. -/
theorem fieldInserted_and_fieldMask (w s : Nat) (v cur : Byte) :
    fieldInserted w s v cur &&& fieldMask w s = fieldEncoded w s v := by
  refine BitVec.eq_of_getLsbD_eq fun k hk => ?_
  rw [BitVec.getLsbD_and, getLsbD_fieldMask, getLsbD_fieldInserted, getLsbD_fieldEncoded]
  by_cases hin : s ≤ k ∧ k < s + w
  · simp [hk, hin]
  · have hout : (decide (s ≤ k) && decide (k < s + w)) = false := by simpa using hin
    simp [hk, hout]

/-- 40_bitfield_codec.md R140: R141 at the byte 0x00. -/
theorem fieldEncoded_and_not_fieldMask (w s : Nat) (v : Byte) : fieldEncoded w s v &&& ~~~fieldMask w s = 0 := by
  rw [← fieldInserted_zero, fieldInserted_and_not_fieldMask]
  exact BitVec.zero_and

/-- 40_bitfield_codec.md R144: the held value, inserted again, changes nothing. -/
theorem fieldInserted_fieldExtracted (w s : Nat) (cur : Byte) :
    fieldInserted w s (fieldExtracted w s cur) cur = cur := by
  refine BitVec.eq_of_getLsbD_eq fun k hk => ?_
  rw [getLsbD_fieldInserted]
  split
  next hin =>
    obtain ⟨-, hlow, hhigh⟩ := hin
    rw [getLsbD_fieldExtracted, Nat.add_sub_cancel' hlow]
    simp [show k - s < 8 by omega, show k - s < w by omega]
  next => rfl

/-- 40_bitfield_codec.md R144: a second insertion replaces the first. -/
theorem fieldInserted_fieldInserted (w s : Nat) (u v cur : Byte) :
    fieldInserted w s v (fieldInserted w s u cur) = fieldInserted w s v cur := by
  refine BitVec.eq_of_getLsbD_eq fun k _ => ?_
  simp only [getLsbD_fieldInserted]
  split <;> rfl

/-! ## Two fields with disjoint masks -/

section Disjoint

variable {wa sa wb sb : Nat} (hdisj : fieldMask wa sa &&& fieldMask wb sb = 0)

include hdisj

/-- Fields with disjoint masks share no place of the byte. -/
theorem not_mem_both_of_disjoint {k : Nat} (ha : k < 8 ∧ sa ≤ k ∧ k < sa + wa) :
    ¬(k < 8 ∧ sb ≤ k ∧ k < sb + wb) := by
  intro hb
  have hbit : (fieldMask wa sa &&& fieldMask wb sb).getLsbD k = false := by
    rw [hdisj]
    exact BitVec.getLsbD_zero
  rw [BitVec.getLsbD_and, getLsbD_fieldMask, getLsbD_fieldMask] at hbit
  simp [ha, hb] at hbit

/-- 40_bitfield_codec.md R142: an insertion into one field leaves the value of the other. -/
theorem fieldExtracted_fieldInserted_of_disjoint (v cur : Byte) :
    fieldExtracted wb sb (fieldInserted wa sa v cur) = fieldExtracted wb sb cur := by
  refine BitVec.eq_of_getLsbD_eq fun k _ => ?_
  rw [getLsbD_fieldExtracted, getLsbD_fieldExtracted, getLsbD_fieldInserted]
  by_cases hkw : k < wb
  · rw [if_neg fun ha => not_mem_both_of_disjoint hdisj ha ⟨ha.1, by omega, by omega⟩]
  · simp [hkw]

/-- 40_bitfield_codec.md R146: each place is written by one insertion at most, so their order does not matter. -/
theorem fieldInserted_comm_of_disjoint (va vb cur : Byte) :
    fieldInserted wa sa va (fieldInserted wb sb vb cur) = fieldInserted wb sb vb (fieldInserted wa sa va cur) := by
  refine BitVec.eq_of_getLsbD_eq fun k _ => ?_
  simp only [getLsbD_fieldInserted]
  split
  next ha => rw [if_neg (not_mem_both_of_disjoint hdisj ha)]
  next => rfl

end Disjoint

/-! ## The field that is the whole byte (40_bitfield_codec.md R147) -/

theorem fieldMask_whole : fieldMask 8 0 = 0xFF := by decide

theorem fieldInserted_whole (v cur : Byte) : fieldInserted 8 0 v cur = v := by
  refine BitVec.eq_of_getLsbD_eq fun k hk => ?_
  rw [getLsbD_fieldInserted, if_pos ⟨hk, Nat.zero_le k, by omega⟩, Nat.sub_zero]

theorem fieldEncoded_whole (v : Byte) : fieldEncoded 8 0 v = v := by
  rw [← fieldInserted_zero, fieldInserted_whole]

theorem fieldExtracted_whole (b : Byte) : fieldExtracted 8 0 b = b :=
  calc fieldExtracted 8 0 b = fieldExtracted 8 0 (fieldEncoded 8 0 b) := by rw [fieldEncoded_whole]
    _ = b := fieldExtracted_fieldEncoded (by decide) b.isLt

end Sys2Proof.Machine
end

section
/-! PROOFS. What the four format D commands answer to operands that pass their checks, and from that the laws of the
codec as the commands show them (40_bitfield_codec.md R140 to R147). -/

namespace Sys2Proof.Machine

/-! ## What the commands answer -/

section Answers

variable {w s : BitVec 4} {v : Byte} {st : State}

/-- An answer read as an equal byte. -/
theorem AnswersRes.of_eq {i : Instr} {b b' : Byte} (h : AnswersRes i st b) (hb : b = b') : AnswersRes i st b' :=
  hb ▸ h

theorem withValue_of_lt_two_pow (hv : v.toNat < 2 ^ w.toNat) (o : CmdOutcome) : withValue w v o = o :=
  if_neg (Nat.not_le_of_lt hv)

/-- A descriptor and a value that pass leave ENC and INS to their formulas. -/
theorem withDesc_withValue_of_lt_two_pow (hw : WfDesc w s) (hv : v.toNat < 2 ^ w.toNat) (o : CmdOutcome) :
    withDesc w s (withValue w v o) = o := by
  rw [withDesc_of_wfDesc hw, withValue_of_lt_two_pow hv]

theorem answersRes_mask (hs : st.halted = false) (hw : WfDesc w s) :
    AnswersRes (.mask w s) st (fieldMask w.toNat s.toNat) :=
  answersRes_of_ok hs (withDesc_of_wfDesc hw _)

theorem answersRes_enc (hs : st.halted = false) (hw : WfDesc w s) (hv : v.toNat < 2 ^ w.toNat) :
    AnswersRes (.enc w s v) st (fieldEncoded w.toNat s.toNat v) :=
  answersRes_of_ok hs (withDesc_withValue_of_lt_two_pow hw hv _)

theorem answersRes_ins (hs : st.halted = false) (hw : WfDesc w s) (hv : v.toNat < 2 ^ w.toNat) (cur : Byte) :
    AnswersRes (.ins w s v cur) st (fieldInserted w.toNat s.toNat v cur) :=
  answersRes_of_ok hs (withDesc_withValue_of_lt_two_pow hw hv _)

theorem answersRes_ext (hs : st.halted = false) (hw : WfDesc w s) (b : Byte) :
    AnswersRes (.ext w s b) st (fieldExtracted w.toNat s.toNat b) :=
  answersRes_of_ok hs (withDesc_of_wfDesc hw _)

/-- MASK answers a byte only on a running block, to a well-formed descriptor, and the byte is the mask. -/
theorem of_answersRes_mask {m : Byte} (h : AnswersRes (.mask w s) st m) :
    st.halted = false ∧ WfDesc w s ∧ m = fieldMask w.toNat s.toNat := by
  obtain ⟨hs, hok⟩ := ok_of_answersRes h
  rw [cmdOutcome, maskOutcome] at hok
  by_cases hw : WfDesc w s
  · rw [withDesc_of_wfDesc hw] at hok
    cases hok
    exact ⟨hs, hw, rfl⟩
  · rw [withDesc_of_not_wfDesc hw] at hok
    cases hok

/-- The sum of a well-formed descriptor keeps the field inside the byte (40_bitfield_codec.md R120). -/
theorem WfDesc.fits (hw : WfDesc w s) : s.toNat + w.toNat ≤ 8 :=
  have ⟨_, _, _, hsum⟩ := hw
  hsum

end Answers

/-! ## The laws -/

/-- Settles O21: an encoded value is one inserted into 0x00, so R141 and R143 give what holds of it. -/
theorem encodedValueExtractsBack : Obligations.EncodedValueExtractsBack :=
  fun _ _ v _ hs hw hv => ⟨_, _, answersRes_mask hs hw, answersRes_enc hs hw hv,
    (answersRes_ext hs hw _).of_eq (fieldExtracted_fieldEncoded hw.fits hv), fieldEncoded_and_not_fieldMask _ _ v,
    (answersRes_ins hs hw hv 0x00).of_eq (fieldInserted_zero _ _ v)⟩

/-- Settles O22: the two halves of the byte are read off bit by bit. -/
theorem insertIsConfinedToMask : Obligations.InsertIsConfinedToMask :=
  fun _ _ v cur _ hs hw hv => ⟨_, _, _, answersRes_mask hs hw, answersRes_enc hs hw hv, answersRes_ins hs hw hv cur,
    fieldInserted_and_not_fieldMask _ _ v cur, fieldInserted_and_fieldMask _ _ v cur⟩

/-- Settles O23: the places of B are none of A's, so the insertion leaves them alone. -/
theorem disjointFieldsAreIsolated : Obligations.DisjointFieldsAreIsolated := by
  intro wa sa wb sb v cur ma mb st hv hma hmb hdisj
  obtain ⟨hs, hwa, rfl⟩ := of_answersRes_mask hma
  obtain ⟨-, hwb, rfl⟩ := of_answersRes_mask hmb
  have hkept := fieldExtracted_fieldInserted_of_disjoint hdisj v cur
  exact ⟨_, _, answersRes_ins hs hwa hv cur, (answersRes_ext hs hwb _).of_eq hkept, answersRes_ext hs hwb cur⟩

/-- Settles O24: the field of an insertion holds the inserted value. -/
theorem insertedValueExtractsBack : Obligations.InsertedValueExtractsBack :=
  fun _ _ _ cur _ hs hw hv => ⟨_, answersRes_ins hs hw hv cur,
    (answersRes_ext hs hw _).of_eq (fieldExtracted_fieldInserted hw.fits hv cur)⟩

/-- Settles O25: an extracted value is admitted, so INS takes it back; a second insertion overwrites every place of the
first. -/
theorem reinsertionChangesNothing : Obligations.ReinsertionChangesNothing := by
  refine ⟨fun w s cur st hs hw => ?_, fun w s u v cur st hs hw hu hv => ?_⟩
  · have hadmitted := fieldExtracted_lt w.toNat s.toNat cur
    exact ⟨_, answersRes_ext hs hw cur,
      (answersRes_ins hs hw hadmitted cur).of_eq (fieldInserted_fieldExtracted _ _ cur)⟩
  · have hreplaced := fieldInserted_fieldInserted w.toNat s.toNat u v cur
    exact ⟨_, _, answersRes_ins hs hw hu cur, (answersRes_ins hs hw hv _).of_eq hreplaced,
      answersRes_ins hs hw hv cur⟩

/-- Settles O26: no place of the byte is written by both insertions. -/
theorem disjointInsertsCommute : Obligations.DisjointInsertsCommute := by
  intro wa sa wb sb va vb cur ma mb st hva hvb hma hmb hdisj
  obtain ⟨hs, hwa, rfl⟩ := of_answersRes_mask hma
  obtain ⟨-, hwb, rfl⟩ := of_answersRes_mask hmb
  have hcomm := fieldInserted_comm_of_disjoint hdisj va vb cur
  exact ⟨_, _, _, answersRes_ins hs hwa hva cur, answersRes_ins hs hwb hvb cur,
    (answersRes_ins hs hwa hva _).of_eq hcomm, answersRes_ins hs hwb hvb _⟩

/-- Settles O27: the descriptor 8, 0 is well-formed, every byte is an admitted value of it, and its places are all of
the byte's. -/
theorem fullWidthFieldIsWholeByte : Obligations.FullWidthFieldIsWholeByte := by
  intro v cur st hs
  have hw : WfDesc 8 0 := (wfDesc_iff 8 0).1 rfl
  have hv : v.toNat < 2 ^ (8 : BitVec 4).toNat := v.isLt
  exact ⟨(answersRes_mask hs hw).of_eq fieldMask_whole, (answersRes_enc hs hw hv).of_eq (fieldEncoded_whole v),
    (answersRes_ins hs hw hv cur).of_eq (fieldInserted_whole v cur),
    (answersRes_ext hs hw cur).of_eq (fieldExtracted_whole cur)⟩

end Sys2Proof.Machine
end

section
/-! PROOFS. The host's reading of payload bytes (43_host_sequences.md R211 to R218). -/

namespace Sys2Proof.Machine

/-! ## The two's-complement reading of a byte -/

theorem byte_toInt_eq (b : Byte) : b.toInt = (b.toNat : Int) - (if b.toNat < 128 then 0 else 256) := by
  by_cases hsign : b.toNat < 128
  · rw [if_pos hsign, sub_zero, BitVec.toInt_eq_toNat_of_lt (by omega)]
  · rw [if_neg hsign, BitVec.toInt_eq_toNat_cond, if_neg (by omega)]
    rfl

theorem byte_toInt_bounds (b : Byte) : -128 ≤ b.toInt ∧ b.toInt ≤ 127 :=
  ⟨BitVec.le_toInt b, Int.le_of_lt_add_one (BitVec.toInt_lt (x := b))⟩

/-! ## Axis values -/

/-- The word of R211, `lo | (hi << 8)`, is the high byte written before the low byte. -/
theorem axis_eq_append (lo hi : Byte) : axis lo hi = (hi ++ lo).toInt := by
  rw [axis, BitVec.append_def, BitVec.shiftLeftZeroExtend_eq, BitVec.setWidth'_eq, BitVec.or_comm]

/-- The sign of an axis value is that of its high byte. -/
theorem axis_eq_toInt (lo hi : Byte) : axis lo hi = 256 * hi.toInt + lo.toNat := by
  rw [axis_eq_append, BitVec.toInt_append]
  rfl

/-- Settles O56: 256 times the signed reading of the high byte takes 65536 off exactly where its top bit is set. -/
theorem axisIsSignedLittleEndian : Obligations.AxisIsSignedLittleEndian := by
  intro lo hi
  have hvalue := axis_eq_toInt lo hi
  have hlow := lo.isLt
  have hhigh := byte_toInt_bounds hi
  refine ⟨?_, by omega, by omega⟩
  rw [hvalue, byte_toInt_eq]
  split <;> omega

/-! ## Temperature -/

theorem celsius_rawTemperature (b : Byte) : celsius (rawTemperature b) = 25 - b.toInt := rfl

/-- Settles O57: 25 minus a signed byte is an integer difference, so the range is that of the byte reflected. -/
theorem temperatureDoesNotWrap : Obligations.TemperatureDoesNotWrap := by
  intro b
  have hbounds := byte_toInt_bounds b
  rw [celsius_rawTemperature]
  exact ⟨by rw [byte_toInt_eq], by omega, by omega⟩

/-! ## Angles -/

/-- Settles O59: each multiplier is its decimal fraction exactly, and division by 180 is exact on the rationals. -/
theorem degreesAreExactMultiples : Obligations.DegreesAreExactMultiples := by
  refine ⟨fun count => ⟨?_, ?_, ?_⟩, fun deg => div_mul_cancel₀ deg (by norm_num)⟩
  all_goals
    rw [degrees, FullScale.multiplier]
    ring

end Sys2Proof.Machine
end

section
/-! PROOFS. The halted block (60_exceptions.md R238, R244, R247, R249): how FDEC halts it, and what it answers until the
next reset. -/

namespace Sys2Proof.Machine

/-! ## Into the halt -/

/-- Every field type has width 2, so its raw code is the two bits at the shift (10_state.md R25). -/
theorem fieldExtracted_width_shift (ft : FieldType) (b : Byte) :
    fieldExtracted ft.width ft.shift b = (b >>> ft.shift) &&& 3 := by
  cases ft <;> rfl

theorem fdecOutcome_of_lookup_none {cfg : Config} {ft : FieldType} {b : Byte}
    (h : (cfg.decTable ft).lookup (fieldExtracted ft.width ft.shift b) = none) :
    fdecOutcome cfg ft.code b = .raise ⟨ft, fieldExtracted ft.width ft.shift b⟩ := by
  rw [fdecOutcome, withField_code]
  simp only [h]

/-- Settles O19: the table has no answer to the two bits that FDEC extracts, so it raises InvalidCode. -/
theorem fdecUnmappedCodeHalts : Obligations.FdecUnmappedCodeHalts := by
  intro ft b st hs hnone
  rw [← fieldExtracted_width_shift] at hnone ⊢
  have hraise := fdecOutcome_of_lookup_none hnone
  rw [exec_of_not_halted hs, cmdOutcome, hraise]
  rfl

/-! ## While halted -/

/-- Settles O9: the check for `halted` comes before the command, and before the word is decoded. -/
theorem haltedRefusesEverything : Obligations.HaltedRefusesEverything :=
  ⟨fun _ _ hs => exec_of_halted hs, fun _ _ _ _ hin hs => step_command_halted hin hs⟩

/-! ## Any number of steps -/

/-- A property that every step from a state with it leads to again holds after any run. -/
theorem run_keeps {P : State → Prop} (hstep : ∀ s, P s → ∃ u, step s = .next u ∧ P u) (n : Nat) :
    ∀ s, P s → ∃ t, Host.Core.run Sys2Proof.core n s = .next t ∧ P t := by
  induction n with
  | zero => exact fun s hs => ⟨s, rfl, hs⟩
  | succ n ih =>
    intro s hs
    obtain ⟨u, hu, hPu⟩ := hstep s hs
    obtain ⟨t, ht, hPt⟩ := ih u hPu
    exact ⟨t, (run_succ n hu).trans ht, hPt⟩

/-- The block is halted, no reset is to come, and if anything was `presented` since some earlier time, the port shows
the answer `Halted` to it. -/
structure HaltedSince (presented : Prop) (t : State) : Prop where
  halted : t.halted = true
  noReset : NoReset t.inputs
  port : presented → t.port = refusalPort 9

/-- A halted block with no reset to come takes its next input, if there is one, by answering `Halted`. -/
theorem step_of_halted {s : State} (hs : s.halted = true) (hno : NoReset s.inputs) :
    ∃ u, step s = .next u ∧ u.halted = true ∧ NoReset u.inputs
      ∧ ((s.inputs = [] ∧ u = s) ∨ u.port = refusalPort 9) := by
  cases hin : s.inputs with
  | nil => exact ⟨s, step_of_inputs_nil hin, hs, hno, .inl ⟨rfl, rfl⟩⟩
  | cons input rest =>
    rw [hin] at hno
    cases input with
    | reset sa0 => exact absurd List.mem_cons_self (hno sa0)
    | command w resp =>
      exact ⟨_, step_command_halted hin hs, hs, fun sa0 hmem => hno sa0 (List.mem_cons_of_mem _ hmem), .inr rfl⟩

theorem step_keeps_haltedSince {presented : Prop} (s : State) (h : HaltedSince presented s) :
    ∃ u, step s = .next u ∧ HaltedSince presented u := by
  obtain ⟨u, hu, hhalt, hno, hport⟩ := step_of_halted h.halted h.noReset
  refine ⟨u, hu, hhalt, hno, fun hp => ?_⟩
  obtain ⟨-, rfl⟩ | hport := hport
  · exact h.port hp
  · exact hport

/-- Settles O46: the first step answers what was presented, and every later step keeps the halt and that answer. -/
theorem haltIsPermanentUntilReset : Obligations.HaltIsPermanentUntilReset := by
  intro n s hs hno
  cases n with
  | zero => exact ⟨s, rfl, hs, fun hpos => absurd hpos (Nat.lt_irrefl 0)⟩
  | succ n =>
    obtain ⟨u, hu, hhalt, hnou, hport⟩ := step_of_halted hs hno
    have hsince : HaltedSince (s.inputs ≠ []) u :=
      ⟨hhalt, hnou, fun hne => hport.resolve_left fun hidle => hne hidle.1⟩
    obtain ⟨t, ht, htsince⟩ := run_keeps step_keeps_haltedSince n u hsince
    exact ⟨t, (run_succ n hu).trans ht, htsince.halted, fun _ => htsince.port⟩

end Sys2Proof.Machine
end

section
/-! PROOFS. A word spells a command exactly when it is the command's word, and exactly when it matches a row of the
table (30_encoding.md R82 to R86, R100). -/

namespace Sys2Proof

open Sys2Proof.Machine

/-! ## From a word's fields to the command's word -/

/-- A field inside a must-be-zero run is 0. -/
theorem field_eq_zero {w : Word} {hi lo lo' len : Nat} (h : zeroBits w hi lo = true) (hlo : lo ≤ lo')
    (hhi : lo' + len ≤ hi + 1) : w.extractLsb' lo' len = 0 :=
  (extractLsb'_eq_iff w 0).2 fun k hk => by
    rw [(zeroBits_iff w hi lo).1 h (lo' + k) (by omega) (by omega)]
    simp

section Fields

variable {w : Word}

theorem encode_mask_fields (hop : opField w = 0x1) (hz : zeroBits w 19 0 = true) :
    encode (.mask (widthField w) (shiftField w)) = w := by
  have hfields := formatD_fields (zeroBits_sub hz (by decide) (by decide))
  have hv : valueField w = 0 := field_eq_zero hz (by decide) (by decide)
  have hb : byteField w = 0 := field_eq_zero hz (by decide) (by decide)
  rwa [hop, hv, hb] at hfields

theorem encode_enc_fields (hop : opField w = 0x2) (hz : (zeroBits w 19 16 && zeroBits w 7 0) = true) :
    encode (.enc (widthField w) (shiftField w) (valueField w)) = w := by
  obtain ⟨hz, hz'⟩ := Bool.and_eq_true_iff.1 hz
  have hfields := formatD_fields hz
  have hb : byteField w = 0 := field_eq_zero hz' (by decide) (by decide)
  rwa [hop, hb] at hfields

theorem encode_ins_fields (hop : opField w = 0x3) (hz : zeroBits w 19 16 = true) :
    encode (.ins (widthField w) (shiftField w) (valueField w) (byteField w)) = w := by
  have hfields := formatD_fields hz
  rwa [hop] at hfields

theorem encode_ext_fields (hop : opField w = 0x4) (hz : zeroBits w 19 8 = true) :
    encode (.ext (widthField w) (shiftField w) (byteField w)) = w := by
  have hfields := formatD_fields (zeroBits_sub hz (by decide) (by decide))
  have hv : valueField w = 0 := field_eq_zero hz (by decide) (by decide)
  rwa [hop, hv] at hfields

theorem encode_fdec_fields (hop : opField w = 0x5) (hz : zeroBits w 23 8 = true) :
    encode (.fdec (ftypeField w) (byteField w)) = w := by
  have hfields := formatT_fields (zeroBits_sub hz (by decide) (by decide))
  have hc : valueField w = 0 := field_eq_zero hz (by decide) (by decide)
  rwa [hop, hc] at hfields

theorem encode_fins_fields (hop : opField w = 0x6) (hz : zeroBits w 23 16 = true) :
    encode (.fins (ftypeField w) (valueField w) (byteField w)) = w := by
  have hfields := formatT_fields hz
  rwa [hop] at hfields

/-! The two transports share a format; bit `t` tells them apart (10_state.md R24). -/

theorem encode_frs (t : BitVec 1) (a : Addr) : encode (.frs (busOf t) a) = formatA 0x8 t 0 0 a := by
  obtain rfl | rfl := BitVec.eq_zero_or_eq_one t <;> rfl

theorem encode_frb (t : BitVec 1) (a : Addr) (n : Byte) : encode (.frb (busOf t) a n) = formatA 0x9 t n 0 a := by
  obtain rfl | rfl := BitVec.eq_zero_or_eq_one t <;> rfl

theorem encode_fwr (t : BitVec 1) (a : Addr) (v : Byte) : encode (.fwr (busOf t) a v) = formatA 0xA t 0 v a := by
  obtain rfl | rfl := BitVec.eq_zero_or_eq_one t <;> rfl

theorem encode_drsp (t : BitVec 1) : encode (.drsp (busOf t)) = formatR t := by
  obtain rfl | rfl := BitVec.eq_zero_or_eq_one t <;> rfl

theorem encode_frs_fields (hop : opField w = 0x8) (hz : zeroBits w 26 7 = true) :
    encode (.frs (busOf (busField w)) (addrField w)) = w := by
  have hfields := formatA_fields (zeroBits_sub hz (by decide) (by decide)) (zeroBits_sub hz (by decide) (by decide))
  have hn : lengthField w = 0 := field_eq_zero hz (by decide) (by decide)
  have hv : valueField w = 0 := field_eq_zero hz (by decide) (by decide)
  rwa [hop, hn, hv, ← encode_frs] at hfields

theorem encode_frb_fields (hop : opField w = 0x9) (hz : (zeroBits w 26 24 && zeroBits w 15 7) = true) :
    encode (.frb (busOf (busField w)) (addrField w) (lengthField w)) = w := by
  obtain ⟨hz, hz'⟩ := Bool.and_eq_true_iff.1 hz
  have hfields := formatA_fields hz (zeroBits_sub hz' (by decide) (by decide))
  have hv : valueField w = 0 := field_eq_zero hz' (by decide) (by decide)
  rwa [hop, hv, ← encode_frb] at hfields

theorem encode_fwr_fields (hop : opField w = 0xA) (hz : (zeroBits w 26 16 && zeroBits w 7 7) = true) :
    encode (.fwr (busOf (busField w)) (addrField w) (valueField w)) = w := by
  obtain ⟨hz, hz'⟩ := Bool.and_eq_true_iff.1 hz
  have hfields := formatA_fields (zeroBits_sub hz (by decide) (by decide)) hz'
  have hn : lengthField w = 0 := field_eq_zero hz (by decide) (by decide)
  rwa [hop, hn, ← encode_fwr] at hfields

theorem encode_drsp_fields (hop : opField w = 0xB) (hz : zeroBits w 26 0 = true) :
    encode (.drsp (busOf (busField w))) = w :=
  (encode_drsp _).trans (formatR_fields hop hz)

end Fields

/-! ## The decoder and the encoder -/

/-- What a command whose must-be-zero bits have been checked says of the word it is read from. -/
theorem encode_of_checked {zeros : Bool} {i j : Instr} {w : Word} (hfields : zeros = true → encode i = w)
    (h : checked zeros i = .ok j) : encode j = w := by
  cases zeros with
  | false => cases h
  | true =>
    cases h
    exact hfields rfl

/-- A word that spells a command is the word of that command. -/
theorem encode_of_decode {w : Word} {i : Instr} (h : decode w = .ok i) : encode i = w := by
  have hopOf {n : BitVec 4} (hn : (opField w).toNat = n.toNat) : opField w = n := BitVec.eq_of_toNat_eq hn
  simp only [decode] at h
  split_ifs at h with h1 h2 h3 h4 h5 h6 h8 h9 hA hB
  · exact encode_of_checked (encode_mask_fields (hopOf h1)) h
  · exact encode_of_checked (encode_enc_fields (hopOf h2)) h
  · exact encode_of_checked (encode_ins_fields (hopOf h3)) h
  · exact encode_of_checked (encode_ext_fields (hopOf h4)) h
  · exact encode_of_checked (encode_fdec_fields (hopOf h5)) h
  · exact encode_of_checked (encode_fins_fields (hopOf h6)) h
  · exact encode_of_checked (encode_frs_fields (hopOf h8)) h
  · exact encode_of_checked (encode_frb_fields (hopOf h9)) h
  · exact encode_of_checked (encode_fwr_fields (hopOf hA)) h
  · exact encode_of_checked (encode_drsp_fields (hopOf hB)) h

/-! Each command's word has the command's `op`, its operands at their places, and zeros at the rest. -/

section Words

variable (w s f : BitVec 4) (v b c n : Byte) (t : BitVec 1) (a : Addr)

theorem decode_mask : decode (formatD 0x1 w s 0 0) = .ok (.mask w s) := by
  have hz : zeroBits (formatD 0x1 w s 0 0) 19 0 = true := (zeroBits_iff _ _ _).2 (by grind [getLsbD_formatD])
  simp only [decode, opField_formatD, widthField_formatD, shiftField_formatD, hz]
  rfl

theorem decode_enc : decode (formatD 0x2 w s v 0) = .ok (.enc w s v) := by
  have hz : zeroBits (formatD 0x2 w s v 0) 19 16 = true := (zeroBits_iff _ _ _).2 (by grind [getLsbD_formatD])
  have hz' : zeroBits (formatD 0x2 w s v 0) 7 0 = true := (zeroBits_iff _ _ _).2 (by grind [getLsbD_formatD])
  simp only [decode, opField_formatD, widthField_formatD, shiftField_formatD, valueField_formatD, hz, hz']
  rfl

theorem decode_ins : decode (formatD 0x3 w s v b) = .ok (.ins w s v b) := by
  have hz : zeroBits (formatD 0x3 w s v b) 19 16 = true := (zeroBits_iff _ _ _).2 (by grind [getLsbD_formatD])
  simp only [decode, opField_formatD, widthField_formatD, shiftField_formatD, valueField_formatD, byteField_formatD, hz]
  rfl

theorem decode_ext : decode (formatD 0x4 w s 0 b) = .ok (.ext w s b) := by
  have hz : zeroBits (formatD 0x4 w s 0 b) 19 8 = true := (zeroBits_iff _ _ _).2 (by grind [getLsbD_formatD])
  simp only [decode, opField_formatD, widthField_formatD, shiftField_formatD, byteField_formatD, hz]
  rfl

theorem decode_fdec : decode (formatT 0x5 f 0 b) = .ok (.fdec f b) := by
  have hz : zeroBits (formatT 0x5 f 0 b) 23 8 = true := (zeroBits_iff _ _ _).2 (by grind [getLsbD_formatT])
  simp only [decode, opField_formatT, ftypeField_formatT, byteField_formatT, hz]
  rfl

theorem decode_fins : decode (formatT 0x6 f c b) = .ok (.fins f c b) := by
  have hz : zeroBits (formatT 0x6 f c b) 23 16 = true := (zeroBits_iff _ _ _).2 (by grind [getLsbD_formatT])
  simp only [decode, opField_formatT, ftypeField_formatT, valueField_formatT, byteField_formatT, hz]
  rfl

theorem decode_frs : decode (formatA 0x8 t 0 0 a) = .ok (.frs (busOf t) a) := by
  have hz : zeroBits (formatA 0x8 t 0 0 a) 26 7 = true := (zeroBits_iff _ _ _).2 (by grind [getLsbD_formatA])
  simp only [decode, opField_formatA, busField_formatA, addrField_formatA, hz]
  rfl

theorem decode_frb : decode (formatA 0x9 t n 0 a) = .ok (.frb (busOf t) a n) := by
  have hz : zeroBits (formatA 0x9 t n 0 a) 26 24 = true := (zeroBits_iff _ _ _).2 (by grind [getLsbD_formatA])
  have hz' : zeroBits (formatA 0x9 t n 0 a) 15 7 = true := (zeroBits_iff _ _ _).2 (by grind [getLsbD_formatA])
  simp only [decode, opField_formatA, busField_formatA, addrField_formatA, lengthField_formatA, hz, hz']
  rfl

theorem decode_fwr : decode (formatA 0xA t 0 v a) = .ok (.fwr (busOf t) a v) := by
  have hz : zeroBits (formatA 0xA t 0 v a) 26 16 = true := (zeroBits_iff _ _ _).2 (by grind [getLsbD_formatA])
  have hz' : zeroBits (formatA 0xA t 0 v a) 7 7 = true := (zeroBits_iff _ _ _).2 (by grind [getLsbD_formatA])
  simp only [decode, opField_formatA, busField_formatA, addrField_formatA, valueField_formatA, hz, hz']
  rfl

theorem decode_drsp : decode (formatR t) = .ok (.drsp (busOf t)) := by
  have hz : zeroBits (formatR t) 26 0 = true := (zeroBits_iff _ _ _).2 (by grind [getLsbD_formatR])
  simp only [decode, opField_formatR, busField_formatR, hz]
  rfl

end Words

/-- The word of a command spells it, at every value of its operands. -/
theorem decode_encode (i : Instr) : decode (encode i) = .ok i := by
  cases i with
  | mask w s => exact decode_mask w s
  | enc w s v => exact decode_enc w s v
  | ins w s v b => exact decode_ins w s v b
  | ext w s b => exact decode_ext w s b
  | fdec f b => exact decode_fdec f b
  | fins f c b => exact decode_fins f b c
  | frsF a => exact decode_frs 0 a
  | frbF a n => exact decode_frb n 0 a
  | fwrF a v => exact decode_fwr v 0 a
  | drspF => exact decode_drsp 0
  | frsA a => exact decode_frs 1 a
  | frbA a n => exact decode_frb n 1 a
  | fwrA a v => exact decode_fwr v 1 a
  | drspA => exact decode_drsp 1

/-! ## The decoder and the rows of the table -/

section Rows

variable {w : Word} {row : OpcodeRow}

/-- A word that matches a row has the row's `op`, which every row's mask covers. -/
theorem opField_of_spells (h : Spells w row) (hmask : opField row.mask = 0xF) : opField w = opField row.word := by
  refine (extractLsb'_eq_iff w (opField row.word)).2 fun k hk => ?_
  have hone : row.mask.getLsbD (28 + k) = true := by
    rw [(extractLsb'_eq_iff row.mask 0xF).1 hmask k hk]
    decide +revert
  rw [getLsbD_of_and_eq h hone, opField, BitVec.getLsbD_extractLsb', decide_eq_true hk, Bool.true_and]

/-- A word that matches a row is zero wherever the row's mask is all ones over zeros of its `match`. -/
theorem zeroBits_of_spells {hi lo : Nat} (h : Spells w row) (hrow : zeroBits (row.word ||| ~~~row.mask) hi lo = true) :
    zeroBits w hi lo = true := by
  refine (zeroBits_iff w hi lo).2 fun k hlo hhi => ?_
  by_cases hk : k < 32
  · have hzero := (zeroBits_iff _ hi lo).1 hrow k hlo hhi
    rw [BitVec.getLsbD_or, BitVec.getLsbD_not, decide_eq_true hk, Bool.true_and, Bool.or_eq_false_iff,
      Bool.not_eq_false'] at hzero
    rw [getLsbD_of_and_eq h hzero.2, hzero.1]
  · exact BitVec.getLsbD_of_ge w k (Nat.le_of_not_lt hk)

/-- A word that matches a row is the word of a command. -/
theorem exists_encode_of_spells (hmem : row ∈ opcodeRows) (h : Spells w row) : ∃ i, encode i = w := by
  have hop := opField_of_spells h
  have hz {hi lo : Nat} := zeroBits_of_spells (hi := hi) (lo := lo) h
  have hzz {hi lo hi' lo' : Nat} (h1 : zeroBits (row.word ||| ~~~row.mask) hi lo = true)
      (h2 : zeroBits (row.word ||| ~~~row.mask) hi' lo' = true) : (zeroBits w hi lo && zeroBits w hi' lo') = true :=
    Bool.and_eq_true_iff.2 ⟨hz h1, hz h2⟩
  simp only [opcodeRows, List.mem_cons, List.not_mem_nil, or_false] at hmem
  obtain rfl | rfl | rfl | rfl | rfl | rfl | rfl | rfl | rfl | rfl | rfl | rfl | rfl | rfl := hmem
  · exact ⟨_, encode_mask_fields (hop rfl) (hz rfl)⟩
  · exact ⟨_, encode_enc_fields (hop rfl) (hzz rfl rfl)⟩
  · exact ⟨_, encode_ins_fields (hop rfl) (hz rfl)⟩
  · exact ⟨_, encode_ext_fields (hop rfl) (hz rfl)⟩
  · exact ⟨_, encode_fdec_fields (hop rfl) (hz rfl)⟩
  · exact ⟨_, encode_fins_fields (hop rfl) (hz rfl)⟩
  · exact ⟨_, encode_frs_fields (hop rfl) (hz rfl)⟩
  · exact ⟨_, encode_frb_fields (hop rfl) (hzz rfl rfl)⟩
  · exact ⟨_, encode_fwr_fields (hop rfl) (hzz rfl rfl)⟩
  · exact ⟨_, encode_drsp_fields (hop rfl) (hz rfl)⟩
  · exact ⟨_, encode_frs_fields (hop rfl) (hz rfl)⟩
  · exact ⟨_, encode_frb_fields (hop rfl) (hzz rfl rfl)⟩
  · exact ⟨_, encode_fwr_fields (hop rfl) (hzz rfl rfl)⟩
  · exact ⟨_, encode_drsp_fields (hop rfl) (hz rfl)⟩

/-- The word of every command matches the command's own row of the table. -/
theorem encodeRow_statement (i : Instr) : Laws.EncodeRow.Statement i := by
  cases i with
  | mask w s => exact Laws.EncodeRow.mask w s
  | enc w s v => exact Laws.EncodeRow.enc w s v
  | ins w s v b => exact Laws.EncodeRow.ins w s v b
  | ext w s b => exact Laws.EncodeRow.ext w s b
  | fdec f b => exact Laws.EncodeRow.fdec f b
  | fins f c b => exact Laws.EncodeRow.fins f c b
  | frsF a => exact Laws.EncodeRow.frsF a
  | frbF a n => exact Laws.EncodeRow.frbF a n
  | fwrF a v => exact Laws.EncodeRow.fwrF a v
  | drspF => exact Laws.EncodeRow.drspF
  | frsA a => exact Laws.EncodeRow.frsA a
  | frbA a n => exact Laws.EncodeRow.frbA a n
  | fwrA a v => exact Laws.EncodeRow.fwrA a v
  | drspA => exact Laws.EncodeRow.drspA

/-- 30_encoding.md R100: the words that match no row are those that spell no command. -/
theorem forall_not_spells_iff : (∀ row ∈ opcodeRows, ¬Spells w row) ↔ ∃ e, decode w = .error e := by
  constructor
  · intro hnone
    cases hd : decode w with
    | error e => exact ⟨e, rfl⟩
    | ok i =>
      obtain ⟨row, hmem, -, hspells⟩ := encodeRow_statement i
      rw [encode_of_decode hd] at hspells
      exact absurd hspells (hnone row hmem)
  · rintro ⟨e, he⟩ row hmem hspells
    obtain ⟨i, rfl⟩ := exists_encode_of_spells hmem hspells
    rw [decode_encode] at he
    cases he

end Rows

/-- Every row's mask covers `op`, and no row has a reserved one (30_encoding.md R101). -/
theorem opcodeRows_op : ∀ row ∈ opcodeRows,
    opField row.mask = 0xF ∧ (opField row.word).toNat ∉ [0x0, 0x7, 0xC, 0xD, 0xE, 0xF] := by
  decide

end Sys2Proof
end

section
/-! PROOFS. Which cause a command or a word is turned away for (60_exceptions.md R233, R242). -/

namespace Sys2Proof.Machine

/-! ## Words that spell nothing -/

/-- Settles O8: a word that matches no row does not decode, and a reserved `op` is that of no row. -/
theorem wordSpellingNothingIsBadOp : Obligations.WordSpellingNothingIsBadOp := by
  refine ⟨fun s w resp rest hin hs hnone => ?_, fun w hreserved row hmem hspells => ?_⟩
  · obtain ⟨e, he⟩ := forall_not_spells_iff.1 hnone
    exact step_command_error hin hs he
  · obtain ⟨hmask, hnot⟩ := opcodeRows_op row hmem
    rw [← opField_of_spells hspells hmask] at hnot
    exact hnot hreserved

/-! ## Lists of causes -/

section FirstCause

variable {p : Prop} {c code : BitVec 4} {rest : List (Prop × BitVec 4)}

theorem FirstCause.here (hp : p) : FirstCause ((p, c) :: rest) c :=
  .inl ⟨hp, rfl⟩

theorem FirstCause.later (hp : ¬p) (h : FirstCause rest code) : FirstCause ((p, c) :: rest) code :=
  .inr ⟨hp, h⟩

/-- A cause that a command does not have. -/
theorem FirstCause.skip (h : FirstCause rest code) : FirstCause ((False, c) :: rest) code :=
  .later not_false h

theorem FirstCause.none : FirstCause [] 0 := rfl

end FirstCause

/-- The causes of the operands and the response list, in the order of R242: those that remain for a command of a block
that is not halted. -/
def operandCauses (cfg : Config) (resp : List Byte) (i : Instr) : List (Prop × BitVec 4) :=
  [(badDescriptorCause i, 2), (valueRangeCause cfg i, 3), (badStartCause cfg i, 4), (badLengthCause resp i, 5),
   (badBurstCause cfg i, 4), (invalidCodeCause cfg i, 8)]

theorem causes_eq (s : State) (resp : List Byte) (i : Instr) :
    causes s resp i = (s.halted = true, 9) :: operandCauses s.cfg resp i := rfl

/-- The status that an outcome puts on the result port (60_exceptions.md R239). -/
def CmdOutcome.status : CmdOutcome → BitVec 4
  | .ok _ => 0
  | .refuse r => r.status
  | .raise _ => 8

theorem report_status (o : CmdOutcome) (s : State) : (report o s).port.status = o.status := by
  cases o with
  | ok r => exact port_status r
  | refuse r => rfl
  | raise e => rfl

/-! ## The checks report the first cause

Each check puts its own cause before those of the outcome it lets through. -/

section Checks

variable {rest : List (Prop × BitVec 4)} {o : CmdOutcome} {cfg : Config} {w s : BitVec 4} {v : Byte} {a : Addr}

theorem withDesc_first (h : FirstCause rest o.status) :
    FirstCause ((¬WfDesc w s, 2) :: rest) (withDesc w s o).status := by
  by_cases hw : WfDesc w s
  · rw [withDesc_of_wfDesc hw]
    exact .later (not_not_intro hw) h
  · rw [withDesc_of_not_wfDesc hw]
    exact .here hw

theorem withValue_first (h : FirstCause rest o.status) :
    FirstCause ((2 ^ w.toNat ≤ v.toNat, 3) :: rest) (withValue w v o).status := by
  by_cases hv : 2 ^ w.toNat ≤ v.toNat
  · rw [withValue_of_two_pow_le hv]
    exact .here hv
  · rw [withValue_of_lt_two_pow (Nat.lt_of_not_le hv)]
    exact .later hv h

theorem withField_first {f : BitVec 4} {o : FieldType → CmdOutcome}
    (h : ∀ ft, f = FieldType.code ft → FirstCause rest (o ft).status) :
    FirstCause ((2 < f.toNat, 2) :: rest) (withField f o).status := by
  cases hf : FieldType.ofCode f with
  | none =>
    have hreserved := FieldType.ofCode_eq_none.1 hf
    rw [withField_of_reserved hreserved]
    exact .here hreserved
  | some ft =>
    have hnot : ¬2 < f.toNat := fun hlt => by simp [FieldType.ofCode_eq_none.2 hlt] at hf
    obtain rfl := FieldType.ofCode_eq_some.1 hf
    rw [withField_code]
    exact .later hnot (h ft rfl)

theorem withAddress_first (h : FirstCause rest o.status) :
    FirstCause ((¬Named cfg a.toNat, 4) :: rest) (withAddress cfg a o).status := by
  by_cases ha : Named cfg a.toNat
  · rw [withAddress_of_named ha]
    exact .later (not_not_intro ha) h
  · rw [withAddress_of_not_named ha]
    exact .here ha

theorem withBurst_first {n : Byte} (h : FirstCause rest o.status) :
    FirstCause ((¬Named cfg a.toNat, 4) :: (n.toNat = 0, 5) :: (¬BurstNamed cfg a n.toNat, 4) :: rest)
      (withBurst cfg a n o).status := by
  refine withAddress_first ?_
  split_ifs with hlen hburst
  · exact .here hlen
  · exact .later hlen (.later (not_not_intro (Config.burstNamed_iff.1 hburst)) h)
  · exact .later hlen (.here (mt Config.burstNamed_iff.2 hburst))

end Checks

/-! ## Every command reports its first cause -/

theorem FieldType.code_injective {ft ft' : FieldType} (h : ft.code = ft'.code) : ft = ft' := by
  simpa using congrArg FieldType.ofCode h

/-- FDEC checks its field type, and after that the one cause left is a raw code without an enumerator. -/
theorem fdecOutcome_first (cfg : Config) (resp : List Byte) (f : BitVec 4) (b : Byte) :
    FirstCause (operandCauses cfg resp (.fdec f b)) (fdecOutcome cfg f b).status := by
  refine withField_first ?_
  rintro ft rfl
  refine .skip (.skip (.skip (.skip ?_)))
  simp only [fieldExtracted_width_shift]
  cases hlookup : (cfg.decTable ft).lookup ((b >>> ft.shift) &&& 3) with
  | none => exact .here ⟨ft, rfl, hlookup⟩
  | some c =>
    refine .later ?_ .none
    rintro ⟨ft', hcode, hnone⟩
    rw [← FieldType.code_injective hcode, hlookup] at hnone
    cases hnone

/-- FINS checks its field type, and after that the one cause left is a code that is not canonical. -/
theorem finsOutcome_first (cfg : Config) (resp : List Byte) (f : BitVec 4) (c b : Byte) :
    FirstCause (operandCauses cfg resp (.fins f c b)) (finsOutcome cfg f c b).status := by
  refine withField_first ?_
  rintro ft rfl
  split_ifs with hmem
  · have hcanonical := mem_codes_iff_canonical.1 hmem
    exact .later (fun hnot => hnot ft rfl hcanonical) (.skip (.skip (.skip (.skip .none))))
  · refine .here fun ft' hcode hcanonical => hmem ?_
    rw [FieldType.code_injective hcode]
    exact mem_codes_iff_canonical.2 hcanonical

theorem drspFOutcome_first (cfg : Config) (resp : List Byte) :
    FirstCause (operandCauses cfg resp .drspF) (drspFOutcome resp).status := by
  refine .skip (.skip (.skip ?_))
  cases resp with
  | nil => exact .here rfl
  | cons dummy payload => exact .later (List.cons_ne_nil dummy payload) (.skip (.skip .none))

/-- The checks of every command stand in the order of R242. -/
theorem cmdOutcome_first (i : Instr) (s : State) :
    FirstCause (operandCauses s.cfg s.resp i) (cmdOutcome s i).status := by
  cases i with
  | mask w sh => exact withDesc_first (.skip (.skip (.skip (.skip (.skip .none)))))
  | enc w sh v => exact withDesc_first (withValue_first (.skip (.skip (.skip (.skip .none)))))
  | ins w sh v b => exact withDesc_first (withValue_first (.skip (.skip (.skip (.skip .none)))))
  | ext w sh b => exact withDesc_first (.skip (.skip (.skip (.skip (.skip .none)))))
  | fdec f b => exact fdecOutcome_first s.cfg s.resp f b
  | fins f c b => exact finsOutcome_first s.cfg s.resp f c b
  | frsF a | fwrF a v | frsA a | fwrA a v => exact .skip (.skip (withAddress_first (.skip (.skip (.skip .none)))))
  | frbF a n | frbA a n => exact .skip (.skip (withBurst_first (.skip .none)))
  | drspF => exact drspFOutcome_first s.cfg s.resp
  | drspA => exact .skip (.skip (.skip (.skip (.skip (.skip .none)))))

/-! ## Every word reports its first cause -/

/-- The causes of a word that spells a command are those of the command. -/
theorem spelledWith_iff {w : Word} {i : Instr} (hd : decode w = .ok i) (p : Instr → Prop) :
    SpelledWith w p ↔ p i := by
  constructor
  · rintro ⟨j, rfl, hp⟩
    rw [decode_encode] at hd
    cases hd
    exact hp
  · exact fun hp => ⟨i, encode_of_decode hd, hp⟩

theorem wordCauses_of_decode {w : Word} {i : Instr} (hd : decode w = .ok i) (s : State) (resp : List Byte) :
    wordCauses s resp w
      = (s.halted = true, 9) :: (∀ row ∈ opcodeRows, ¬Spells w row, 1) :: operandCauses s.cfg resp i := by
  simp only [wordCauses, operandCauses, spelledWith_iff hd]

/-- Settles O10: the halted check comes first, then the decoder, and then the checks of the command. -/
theorem statusIsFirstCause : Obligations.StatusIsFirstCause := by
  refine ⟨fun i s => ?_, fun s w resp rest hin => ?_⟩
  · cases hs : s.halted with
    | true => exact ⟨_, exec_of_halted hs, .here hs⟩
    | false =>
      refine ⟨_, exec_of_not_halted hs, ?_⟩
      rw [causes_eq, report_status]
      exact .later (by simp [hs]) (cmdOutcome_first i s)
  · cases hs : s.halted with
    | true => exact ⟨_, step_command_halted hin hs, .here hs⟩
    | false =>
      have hrunning : ¬s.halted = true := by simp [hs]
      cases hd : decode w with
      | error e =>
        have hnone := forall_not_spells_iff.2 ⟨e, hd⟩
        exact ⟨_, step_command_error hin hs hd, .later hrunning (.here hnone)⟩
      | ok i =>
        refine ⟨_, step_command_ok hin hs hd, ?_⟩
        have hspells : ¬∀ row ∈ opcodeRows, ¬Spells w row := fun hnone => by
          obtain ⟨e, he⟩ := forall_not_spells_iff.1 hnone
          cases hd.symm.trans he
        rw [wordCauses_of_decode hd, report_status]
        exact .later hrunning (.later hspells (cmdOutcome_first i { s with resp := resp }))

end Sys2Proof.Machine
end

section
/-! PROOFS. The command word as the spec's table and its test vectors have it (30_encoding.md R82 to R85, R100). -/

namespace Sys2Proof

open Sys2Proof.Machine

/-- Settles O5: each format puts every operand at the place its decoder reads. -/
theorem decodeOfEncodeIsSame : Obligations.DecodeOfEncodeIsSame :=
  decode_encode

/-- Settles O6: the fields that the decoder reads, with the zeros that it checks, are the whole word. -/
theorem encodeOfDecodeIsSame : Obligations.EncodeOfDecodeIsSame :=
  fun _ _ => encode_of_decode

/-- Settles O4: each word is the one the encoder gives for its command. -/
theorem specWordsDecode : Obligations.SpecWordsDecode :=
  ⟨decode_encode (.mask 2 6), decode_encode (.enc 2 6 2), decode_encode (.ins 2 6 2 0x3F), decode_encode (.fdec 2 0x20),
    decode_encode (.frbF 0x28 6), decode_encode (.fwrA 0x20 0x0F), decode_encode .drspA⟩

/-! ## Words and rows -/

/-- Two rows that one word matches agree wherever both masks look. -/
theorem word_and_mask_of_spells {w : Word} {row row' : OpcodeRow} (h : Spells w row) (h' : Spells w row') :
    row.word &&& row'.mask = row'.word &&& row.mask := by
  rw [← h, ← h', BitVec.and_assoc, BitVec.and_assoc, BitVec.and_comm row.mask]

/-- Any two rows of the table differ at a place where both masks look. -/
theorem opcodeRows_exclusive : ∀ row ∈ opcodeRows, ∀ row' ∈ opcodeRows,
    row.word &&& row'.mask = row'.word &&& row.mask → row = row' := by
  decide

theorem opcodeRows_mnemonic_injective : ∀ row ∈ opcodeRows, ∀ row' ∈ opcodeRows,
    row.mnemonic = row'.mnemonic → row = row' := by
  decide

/-- No word matches two rows of the table. -/
theorem row_eq_of_spells {w : Word} {row row' : OpcodeRow} (hrow : row ∈ opcodeRows) (hrow' : row' ∈ opcodeRows)
    (h : Spells w row) (h' : Spells w row') : row = row' :=
  opcodeRows_exclusive row hrow row' hrow' (word_and_mask_of_spells h h')

/-- A word spells a command with the mnemonic of a row exactly when it matches the row. -/
theorem decode_mnemonic_iff_spells {w : Word} {row : OpcodeRow} (hrow : row ∈ opcodeRows) :
    (∃ i, decode w = .ok i ∧ i.mnemonic = row.mnemonic) ↔ Spells w row := by
  constructor
  · rintro ⟨i, hd, hname⟩
    obtain ⟨row', hrow', hname', hspells⟩ := encodeRow_statement i
    rw [encode_of_decode hd] at hspells
    rwa [opcodeRows_mnemonic_injective row hrow row' hrow' (hname.symm.trans hname'.symm)]
  · intro h
    obtain ⟨i, rfl⟩ := exists_encode_of_spells hrow h
    obtain ⟨row', hrow', hname', hspells⟩ := encodeRow_statement i
    rw [row_eq_of_spells hrow hrow' h hspells]
    exact ⟨i, decode_encode i, hname'.symm⟩

/-- Settles O7: a command's word matches the command's own row, and any two rows differ where both masks look. -/
theorem wordSpellsRowExactly : Obligations.WordSpellsRowExactly :=
  ⟨fun _ _ hrow => decode_mnemonic_iff_spells hrow, fun _ _ hrow _ hrow' => row_eq_of_spells hrow hrow',
    fun _ => forall_not_spells_iff.1⟩

end Sys2Proof
end

section
/-! PROOFS. What the codec commands answer (40_bitfield_codec.md R121 to R126, R148), by the bits of the formulas. -/

namespace Sys2Proof.Machine

/-! ## The formulas as arithmetic -/

/-- 40_bitfield_codec.md R122: an admitted value is moved up whole, since its field ends inside the byte. -/
theorem toNat_fieldEncoded {w s : Nat} {v : Byte} (hfit : s + w ≤ 8) (hv : v.toNat < 2 ^ w) :
    (fieldEncoded w s v).toNat = v.toNat * 2 ^ s := by
  refine Nat.eq_of_testBit_eq fun k => ?_
  rw [BitVec.testBit_toNat, getLsbD_fieldEncoded, Nat.testBit_mul_two_pow, BitVec.testBit_toNat]
  by_cases hk : k < s + w
  · simp [hk, show k < 8 by omega]
  · by_cases hs : s ≤ k
    · simp [hk, getLsbD_of_lt_two_pow hv (show w ≤ k - s by omega)]
    · simp [hs]

/-- 40_bitfield_codec.md R124: a field is a quotient and a remainder of the byte. -/
theorem toNat_fieldExtracted (w s : Nat) (hw : w ≤ 8) (b : Byte) :
    (fieldExtracted w s b).toNat = b.toNat / 2 ^ s % 2 ^ w := by
  refine Nat.eq_of_testBit_eq fun k => ?_
  rw [BitVec.testBit_toNat, getLsbD_fieldExtracted, Nat.testBit_mod_two_pow, Nat.testBit_div_two_pow,
    BitVec.testBit_toNat, Nat.add_comm]
  by_cases hk : k < w
  · simp [hk, show k < 8 by omega]
  · simp [hk]

/-! ## The format D commands -/

/-- The places of a field, as the mask's bits have them. -/
theorem getLsbD_fieldMask_iff {w s : BitVec 4} (hw : WfDesc w s) (k : Nat) :
    (fieldMask w.toNat s.toNat).getLsbD k = true ↔ InField w s k := by
  have hfit := hw.fits
  simp only [getLsbD_fieldMask, InField, Bool.and_eq_true, decide_eq_true_eq]
  omega

/-- Settles O14: the mask is its formula, read once as a number and once bit by bit. -/
theorem maskHasFieldBits : Obligations.MaskHasFieldBits := by
  intro w s st hs hw
  refine ⟨_, answersRes_mask hs hw, ?_, getLsbD_fieldMask_iff hw⟩
  rw [fieldMask, trunc8, Nat.shiftLeft_eq]

/-- Settles O15: an encoded value is moved up to its field and lies inside the mask. -/
theorem encPlacesValueInField : Obligations.EncPlacesValueInField := by
  intro w s v st hs hw hv
  refine ⟨_, answersRes_enc hs hw hv, toNat_fieldEncoded hw.fits hv, fun k hk => (getLsbD_fieldMask_iff hw k).1 ?_⟩
  rw [fieldEncoded, BitVec.getLsbD_and, Bool.and_eq_true] at hk
  exact hk.2

/-- Settles O16: an insertion tells the places of the field from the others. -/
theorem insReplacesFieldOnly : Obligations.InsReplacesFieldOnly := by
  intro w s v cur st hs hw hv
  have hfit := hw.fits
  refine ⟨_, answersRes_ins hs hw hv cur, fun k hin => ?_, fun k hout => ?_⟩
  · obtain ⟨hlow, hhigh⟩ := hin
    rw [getLsbD_fieldInserted, if_pos ⟨by omega, hlow, hhigh⟩]
  · rw [getLsbD_fieldInserted, if_neg fun h => hout h.2]

/-- Settles O17: the width of a well-formed descriptor is at most that of the byte. -/
theorem extTakesFieldValue : Obligations.ExtTakesFieldValue := by
  intro w s b st hs hw
  have hwidth : w.toNat ≤ 8 := le_trans (Nat.le_add_left _ _) hw.fits
  exact ⟨_, answersRes_ext hs hw b, toNat_fieldExtracted _ _ hwidth b⟩

/-! ## The typed commands -/

/-- The descriptor of a field type (10_state.md R25), as operands of a format D command. -/
theorem wfDesc_fieldType (ft : FieldType) : WfDesc 2 (BitVec.ofNat 4 ft.shift) := by
  cases ft <;> exact (wfDesc_iff _ _).1 rfl

theorem Canonical.lt_four {cfg : Config} {ft : FieldType} {c : Byte} (h : Canonical cfg ft c) : c.toNat < 4 :=
  have ⟨_, hlookup⟩ := h
  DecodeTable.lookup_lt hlookup

theorem answersRes_fdec {ft : FieldType} {b c : Byte} {st : State} (hs : st.halted = false)
    (h : (st.cfg.decTable ft).lookup (fieldExtracted ft.width ft.shift b) = some c) :
    AnswersRes (.fdec ft.code b) st c :=
  answersRes_of_ok hs (fdecOutcome_of_lookup_some h)

theorem answersRes_fins {ft : FieldType} {c : Byte} {st : State} (hs : st.halted = false) (hc : Canonical st.cfg ft c)
    (cur : Byte) : AnswersRes (.fins ft.code c cur) st (fieldInserted ft.width ft.shift c cur) :=
  answersRes_of_ok hs (finsOutcome_of_canonical hc cur)

/-- A canonical code is admitted by the field of its type. -/
theorem Canonical.lt_two_pow_width {cfg : Config} {ft : FieldType} {c : Byte} (h : Canonical cfg ft c) :
    c.toNat < 2 ^ ft.width := by
  cases ft <;> exact h.lt_four

/-- What is inserted into the field of a type is what is then extracted from it. -/
theorem fieldExtracted_fieldInserted_of_canonical {cfg : Config} {ft : FieldType} {c : Byte} (h : Canonical cfg ft c)
    (cur : Byte) : fieldExtracted ft.width ft.shift (fieldInserted ft.width ft.shift c cur) = c := by
  refine fieldExtracted_fieldInserted ?_ h.lt_two_pow_width cur
  cases ft <;> decide

/-- A canonical code of a well-formed configuration decodes to itself (log 10). -/
theorem Canonical.lookup_self {cfg : Config} {ft : FieldType} {c : Byte} (h : Canonical cfg ft c)
    (hwf : cfg.wf = true) : (cfg.decTable ft).lookup c = some c :=
  have ⟨_, hlookup⟩ := h
  DecodeTable.lookup_canonical (Config.decTable_wf hwf ft) hlookup

/-- Settles O18: the raw code of the rule is the field that FDEC extracts. -/
theorem fdecNamesEnumerator : Obligations.FdecNamesEnumerator := by
  intro ft b c st hs hlookup
  rw [← fieldExtracted_width_shift] at hlookup
  exact answersRes_fdec hs hlookup

/-- Settles O20: FINS of a canonical code passes its check, and INS with the field's descriptor passes both of its own,
since a canonical code is below 4. -/
theorem finsInsertsCanonicalCode : Obligations.FinsInsertsCanonicalCode := by
  intro ft c cur st hs hc
  have hins := answersRes_ins hs (wfDesc_fieldType ft) (v := c) hc.lt_four cur
  refine ⟨_, answersRes_fins hs hc cur, ?_⟩
  cases ft <;> exact hins

/-- Settles O28: an inserted canonical code extracts back and decodes to itself; FINS of 3 writes raw code 3 where raw
code 2 stood. -/
theorem typedRoundTrip : Obligations.TypedRoundTrip := by
  refine ⟨fun ft c cur st hs hwf hc => ⟨_, answersRes_fins hs hc cur, answersRes_fdec hs ?_⟩, fun b st hs halias => ?_⟩
  · rw [fieldExtracted_fieldInserted_of_canonical hc]
    exact hc.lookup_self hwf
  · obtain ⟨hdecodes, -, r, hfins, hraw⟩ := aliasIsAcceptedOnlyOnDecode b st hs
    refine ⟨hdecodes (.inl halias), r, hfins, hraw, ?_⟩
    rintro rfl
    rw [halias] at hraw
    exact absurd hraw (by decide)

end Sys2Proof.Machine
end

section
/-! PROOFS. The framing commands (41_framer_framed.md, 42_framer_addressed.md): the descriptor of each, on either bus,
and that nothing else answers a descriptor. -/

namespace Sys2Proof.Machine

/-! ## The exchange of each framing command -/

/-- The exchange of a single read (41_framer_framed.md R151, 42_framer_addressed.md R171). -/
def frsExchange (s : State) (a : Addr) : Bus → Exchange
  | .framed => duplex [headerByte s.cfg.rwRead msSingle a, s.cfg.fill]
  | .addressed => writeRead s.slaveId [subAddress a] 1

/-- The exchange of a burst read (41_framer_framed.md R152, 42_framer_addressed.md R172). -/
def frbExchange (s : State) (a : Addr) (n : Byte) : Bus → Exchange
  | .framed => duplex (headerByte s.cfg.rwRead msMulti a :: List.replicate n.toNat s.cfg.fill)
  | .addressed => writeRead s.slaveId [subAddressBurst a] n.toNat

/-- The exchange of a write (41_framer_framed.md R153, 42_framer_addressed.md R173). -/
def fwrExchange (s : State) (a : Addr) (v : Byte) : Bus → Exchange
  | .framed => duplex [headerByte (rwWrite s.cfg) msSingle a, v]
  | .addressed => writeRead s.slaveId [subAddress a, v] 0

theorem cmdOutcome_frs (s : State) (t : Bus) (a : Addr) :
    cmdOutcome s (.frs t a) = withAddress s.cfg a (.ok (.xd (frsExchange s a t))) := by
  cases t <;> rfl

theorem cmdOutcome_frb (s : State) (t : Bus) (a : Addr) (n : Byte) :
    cmdOutcome s (.frb t a n) = withBurst s.cfg a n (.ok (.xd (frbExchange s a n t))) := by
  cases t <;> rfl

theorem cmdOutcome_fwr (s : State) (t : Bus) (a : Addr) (v : Byte) :
    cmdOutcome s (.fwr t a v) = withAddress s.cfg a (.ok (.xd (fwrExchange s a v t))) := by
  cases t <;> rfl

/-! ## Operands that pass their checks -/

section Checks

variable {cfg : Config} {a : Addr} {n : Byte} {o : CmdOutcome} {r : Result}

/-- A burst that is not empty starts at a named address. -/
theorem BurstNamed.start (hb : BurstNamed cfg a n.toNat) (hn : 1 ≤ n.toNat) : Named cfg a.toNat :=
  hb 0 hn

theorem withBurst_of_burstNamed (hn : 1 ≤ n.toNat) (hb : BurstNamed cfg a n.toNat) : withBurst cfg a n o = o := by
  rw [withBurst, withAddress_of_named (hb.start hn), if_neg (Nat.ne_zero_of_lt hn), if_pos (Config.burstNamed_iff.2 hb)]

theorem withAddress_eq_ok (h : withAddress cfg a o = .ok r) : Named cfg a.toNat ∧ o = .ok r := by
  by_cases ha : Named cfg a.toNat
  · rw [withAddress_of_named ha] at h
    exact ⟨ha, h⟩
  · rw [withAddress_of_not_named ha] at h
    cases h

theorem withBurst_eq_ok (h : withBurst cfg a n o = .ok r) :
    1 ≤ n.toNat ∧ BurstNamed cfg a n.toNat ∧ o = .ok r := by
  obtain ⟨-, h⟩ := withAddress_eq_ok h
  split_ifs at h with hlen hburst
  exact ⟨Nat.one_le_iff_ne_zero.2 hlen, Config.burstNamed_iff.1 hburst, h⟩

theorem withDesc_eq_ok {w s : BitVec 4} (h : withDesc w s o = .ok r) : o = .ok r := by
  by_cases hw : WfDesc w s
  · rwa [withDesc_of_wfDesc hw] at h
  · rw [withDesc_of_not_wfDesc hw] at h
    cases h

theorem withValue_eq_ok {w : BitVec 4} {v : Byte} (h : withValue w v o = .ok r) : o = .ok r := by
  by_cases hv : v.toNat < 2 ^ w.toNat
  · rwa [withValue_of_lt_two_pow hv] at h
  · rw [withValue_of_two_pow_le (Nat.le_of_not_lt hv)] at h
    cases h

end Checks

/-! Whatever response list stands on the port: a framing command does not look at it. -/

section Answers

variable {a : Addr} {n v : Byte} {s : State}

theorem cmdOutcome_frs_of_named (ha : Named s.cfg a.toNat) (t : Bus) (resp : List Byte) :
    cmdOutcome { s with resp := resp } (.frs t a) = .ok (.xd (frsExchange s a t)) := by
  cases t <;> exact withAddress_of_named ha _

theorem cmdOutcome_frb_of_burstNamed (hn : 1 ≤ n.toNat) (hb : BurstNamed s.cfg a n.toNat) (t : Bus)
    (resp : List Byte) : cmdOutcome { s with resp := resp } (.frb t a n) = .ok (.xd (frbExchange s a n t)) := by
  cases t <;> exact withBurst_of_burstNamed hn hb

theorem cmdOutcome_fwr_of_named (ha : Named s.cfg a.toNat) (t : Bus) (resp : List Byte) :
    cmdOutcome { s with resp := resp } (.fwr t a v) = .ok (.xd (fwrExchange s a v t)) := by
  cases t <;> exact withAddress_of_named ha _

theorem answersXd_frs (hs : s.halted = false) (ha : Named s.cfg a.toNat) (t : Bus) :
    AnswersXd (.frs t a) s (frsExchange s a t) :=
  answersXd_of_ok hs (cmdOutcome_frs_of_named ha t s.resp)

theorem answersXd_frb (hs : s.halted = false) (hn : 1 ≤ n.toNat) (hb : BurstNamed s.cfg a n.toNat) (t : Bus) :
    AnswersXd (.frb t a n) s (frbExchange s a n t) :=
  answersXd_of_ok hs (cmdOutcome_frb_of_burstNamed hn hb t s.resp)

theorem answersXd_fwr (hs : s.halted = false) (ha : Named s.cfg a.toNat) (t : Bus) :
    AnswersXd (.fwr t a v) s (fwrExchange s a v t) :=
  answersXd_of_ok hs (cmdOutcome_fwr_of_named ha t s.resp)

end Answers

/-! ## The frames -/

/-- 30_encoding.md R88: a single access leaves bit 6 to the address. -/
theorem headerByte_single (rw : BitVec 1) (a : Addr) :
    headerByte rw msSingle a = (rw.setWidth 8 <<< 7) ||| a.setWidth 8 := by
  simp [headerByte, msSingle]

/-- 30_encoding.md R88: a burst sets bit 6. -/
theorem headerByte_multi (rw : BitVec 1) (a : Addr) :
    headerByte rw msMulti a = (rw.setWidth 8 <<< 7) ||| 0x40 ||| a.setWidth 8 := rfl

/-- Settles O35: FRS.F of a named address passes its one check. -/
theorem framedSingleReadFrame : Obligations.FramedSingleReadFrame := by
  refine fun a st hs ha => ⟨_, answersXd_frs hs ha .framed, headerByte_single _ a, fun hread => ?_⟩
  rw [headerByte_single, hread]
  rfl

/-- Settles O36: FRB.F of an admitted burst passes its three checks; its frame is the header and one fill byte for each
byte to come. -/
theorem framedBurstReadFrame : Obligations.FramedBurstReadFrame := by
  refine fun a n st hs hn hb => ⟨headerByte st.cfg.rwRead msMulti a, ?_, headerByte_multi _ a, fun hread => ?_⟩
  · have hframe := answersXd_frb hs hn hb .framed
    rwa [frbExchange, duplex, List.length_cons, List.length_replicate] at hframe
  · rw [headerByte_multi, hread]
    rfl

/-- Settles O37: FWR.F of a named address passes its one check, whatever the value. -/
theorem framedSingleWriteFrame : Obligations.FramedSingleWriteFrame := by
  refine fun a v st hs ha => ⟨_, answersXd_fwr hs ha .framed, headerByte_single _ a, fun hread => ?_⟩
  rw [headerByte_single, rwWrite, hread]
  exact BitVec.zero_or

/-- Settles O40: FRS.A of a named address passes its one check. -/
theorem addressedSingleReadFrame : Obligations.AddressedSingleReadFrame :=
  fun _ _ hs ha => answersXd_frs hs ha .addressed

/-- Settles O41: FRB.A of an admitted burst passes its three checks. -/
theorem addressedBurstReadFrame : Obligations.AddressedBurstReadFrame :=
  fun _ _ _ hs hn hb => answersXd_frb hs hn hb .addressed

/-- Settles O42: FWR.A of a named address passes its one check, whatever the value. -/
theorem addressedSingleWriteFrame : Obligations.AddressedSingleWriteFrame :=
  fun _ _ _ hs ha => answersXd_fwr hs ha .addressed

/-! ## Responses -/

/-- The response list that carries the payload `l` on a bus: the framed bus puts a dummy byte before it (10_state.md
R38). -/
def responseOf (dummy : Byte) (l : List Byte) : Bus → List Byte
  | .framed => dummy :: l
  | .addressed => l

theorem cmdOutcome_drsp {s : State} {t : Bus} {dummy : Byte} {l : List Byte} (h : s.resp = responseOf dummy l t) :
    cmdOutcome s (.drsp t) = .ok (.payload l) := by
  cases t with
  | framed => exact congrArg drspFOutcome h
  | addressed => exact congrArg drspAOutcome h

/-- DRSP.t answers the payload that its response list carries, and only that. -/
theorem cmdOutcome_drsp_eq_ok {s : State} {t : Bus} {l : List Byte} (h : cmdOutcome s (.drsp t) = .ok (.payload l)) :
    ∃ dummy, s.resp = responseOf dummy l t := by
  cases t with
  | framed =>
    cases hresp : s.resp with
    | nil =>
      rw [cmdOutcome, hresp] at h
      cases h
    | cons dummy payload =>
      rw [cmdOutcome, hresp] at h
      cases h
      exact ⟨dummy, rfl⟩
  | addressed =>
    cases h
    exact ⟨0, rfl⟩

/-- Settles O39: the first byte of the response list is dropped unread. -/
theorem framedResponseDropsDummy : Obligations.FramedResponseDropsDummy :=
  fun dummy l st hs =>
    answersPayload_of_ok (s := { st with resp := dummy :: l }) hs (cmdOutcome_drsp (t := .framed) (dummy := dummy) rfl)

/-- Settles O43: on the addressed bus the response list is the payload. -/
theorem addressedResponseIsPayload : Obligations.AddressedResponseIsPayload :=
  fun _ hs => answersPayload_of_ok hs (cmdOutcome_drsp (t := .addressed) (dummy := 0) rfl)

/-! ## Only the framing commands answer a descriptor -/

/-- What a command that answers the descriptor `x` is: a read or a write of admitted addresses, on either bus. -/
inductive Frames (s : State) : Instr → Exchange → Prop
  | single (t : Bus) (a : Addr) (ha : Named s.cfg a.toNat) : Frames s (.frs t a) (frsExchange s a t)
  | burst (t : Bus) (a : Addr) (n : Byte) (hn : 1 ≤ n.toNat) (hb : BurstNamed s.cfg a n.toNat) :
    Frames s (.frb t a n) (frbExchange s a n t)
  | write (t : Bus) (a : Addr) (v : Byte) (ha : Named s.cfg a.toNat) : Frames s (.fwr t a v) (fwrExchange s a v t)

section Inversion

variable {s : State} {x : Exchange} {a : Addr} {n v : Byte} {t : Bus}

theorem cmdOutcome_frs_eq_ok (h : cmdOutcome s (.frs t a) = .ok (.xd x)) :
    Named s.cfg a.toNat ∧ x = frsExchange s a t := by
  rw [cmdOutcome_frs] at h
  obtain ⟨ha, hx⟩ := withAddress_eq_ok h
  cases hx
  exact ⟨ha, rfl⟩

theorem cmdOutcome_frb_eq_ok (h : cmdOutcome s (.frb t a n) = .ok (.xd x)) :
    1 ≤ n.toNat ∧ BurstNamed s.cfg a n.toNat ∧ x = frbExchange s a n t := by
  rw [cmdOutcome_frb] at h
  obtain ⟨hn, hb, hx⟩ := withBurst_eq_ok h
  cases hx
  exact ⟨hn, hb, rfl⟩

theorem cmdOutcome_fwr_eq_ok (h : cmdOutcome s (.fwr t a v) = .ok (.xd x)) :
    Named s.cfg a.toNat ∧ x = fwrExchange s a v t := by
  rw [cmdOutcome_fwr] at h
  obtain ⟨ha, hx⟩ := withAddress_eq_ok h
  cases hx
  exact ⟨ha, rfl⟩

theorem frames_of_xd {i : Instr} (h : cmdOutcome s i = .ok (.xd x)) : Frames s i x := by
  cases i with
  | mask w sh => cases withDesc_eq_ok h
  | enc w sh v => cases withValue_eq_ok (withDesc_eq_ok h)
  | ins w sh v b => cases withValue_eq_ok (withDesc_eq_ok h)
  | ext w sh b => cases withDesc_eq_ok h
  | fdec f b =>
    rw [cmdOutcome, fdecOutcome, withField] at h
    split at h
    · simp only at h
      split at h <;> cases h
    · cases h
  | fins f c b =>
    rw [cmdOutcome, finsOutcome, withField] at h
    split at h
    · split_ifs at h
      cases h
    · cases h
  | frsF a =>
    obtain ⟨ha, rfl⟩ := cmdOutcome_frs_eq_ok (t := .framed) h
    exact .single .framed a ha
  | frbF a n =>
    obtain ⟨hn, hb, rfl⟩ := cmdOutcome_frb_eq_ok (t := .framed) h
    exact .burst .framed a n hn hb
  | fwrF a v =>
    obtain ⟨ha, rfl⟩ := cmdOutcome_fwr_eq_ok (t := .framed) h
    exact .write .framed a v ha
  | drspF =>
    rw [cmdOutcome] at h
    unfold drspFOutcome at h
    split at h <;> cases h
  | frsA a =>
    obtain ⟨ha, rfl⟩ := cmdOutcome_frs_eq_ok (t := .addressed) h
    exact .single .addressed a ha
  | frbA a n =>
    obtain ⟨hn, hb, rfl⟩ := cmdOutcome_frb_eq_ok (t := .addressed) h
    exact .burst .addressed a n hn hb
  | fwrA a v =>
    obtain ⟨ha, rfl⟩ := cmdOutcome_fwr_eq_ok (t := .addressed) h
    exact .write .addressed a v ha
  | drspA => cases h

end Inversion

/-! ## The bits of a header -/

/-- Every named address fits into the six address bits of a header (10_state.md R27). -/
theorem Named.lt_header {cfg : Config} {a : Nat} (h : Named cfg a) (hwf : cfg.wf = true) : a < 64 := by
  have := (Config.named_range hwf h).2
  omega

/-- 41_framer_framed.md R155: the three parts of a header, of an address that fits, each stand in their own bits. -/
theorem headerByte_bits (rw ms : BitVec 1) {a : Addr} (h : a.toNat < 64) :
    (headerByte rw ms a).extractLsb' 7 1 = rw ∧ (headerByte rw ms a).extractLsb' 6 1 = ms
      ∧ (headerByte rw ms a).extractLsb' 0 6 = a.setWidth 6 := by
  refine ⟨headerByte_rw rw ms a, headerByte_ms rw ms h, BitVec.eq_of_toNat_eq ?_⟩
  rw [headerByte_addr rw ms h, BitVec.toNat_setWidth, Nat.mod_eq_of_lt h]

/-- Settles O38: a named address is below 0x40, so the header's three parts do not overlap. -/
theorem headerBitsAreNotAddressBits : Obligations.HeaderBitsAreNotAddressBits := by
  intro i a st t x h rest hs hwf hexec hx _ htx
  have hok := xd_of_port hs hexec hx
  refine ⟨?_, fun n => ?_, fun v => ?_⟩
  · rintro rfl
    obtain ⟨ha, rfl⟩ := cmdOutcome_frs_eq_ok (t := .framed) hok
    cases htx
    exact headerByte_bits _ _ (ha.lt_header hwf)
  · rintro rfl
    obtain ⟨hn, hb, rfl⟩ := cmdOutcome_frb_eq_ok (t := .framed) hok
    cases htx
    exact headerByte_bits _ _ ((hb.start hn).lt_header hwf)
  · rintro rfl
    obtain ⟨ha, rfl⟩ := cmdOutcome_fwr_eq_ok (t := .framed) hok
    cases htx
    exact headerByte_bits _ _ (ha.lt_header hwf)

end Sys2Proof.Machine
end

section
/-! PROOFS. What a command and a step change, and what every step keeps (40_bitfield_codec.md R125, R127;
60_exceptions.md R248; 70_reset_and_hazards.md R260). -/

namespace Sys2Proof.Machine

/-! ## One step -/

/-- A step that takes a reset. -/
theorem step_reset {s : State} {sa0 : Bool} {rest : List Input} (h : s.inputs = .reset sa0 :: rest) :
    step s = .next (resetBlock sa0 { s with inputs := rest }) := by
  simp only [step, takeInput, h]

/-- Settles O2: reset clears the one state bit and samples the strap, and the configuration is not its to change. -/
theorem resetClearsHaltedAndSamplesStrap : Obligations.ResetClearsHaltedAndSamplesStrap :=
  fun _ _ _ hin => ⟨_, step_reset hin, rfl, rfl, rfl, rfl⟩

/-- Settles O3: a running block decodes the word it takes and executes the command. -/
theorem stepRunsDecodedInstruction : Obligations.StepRunsDecodedInstruction := by
  intro s w resp rest i hin hs hd
  refine ⟨_, exec_of_not_halted (s := { s with inputs := rest, resp := resp }) hs, ?_⟩
  rw [step_command hin, runWord_ok (s := { s with inputs := rest, resp := resp }) hs hd, clearResp]

/-! ## What an outcome does to the state -/

theorem report_frame (o : CmdOutcome) (s : State) :
    report o s = { s with port := (report o s).port, halted := (report o s).halted } := by
  cases o <;> rfl

/-- Only InvalidCode moves `halted` (10_state.md R22). -/
theorem report_halted_of_ne_raise {o : CmdOutcome} (s : State) (h : ∀ e, o ≠ .raise e) :
    (report o s).halted = s.halted := by
  cases o with
  | ok r => rfl
  | refuse r => rfl
  | raise e => exact absurd rfl (h e)

theorem raise_of_report_halted_ne {o : CmdOutcome} {s : State} (h : (report o s).halted ≠ s.halted) :
    ∃ e, o = .raise e := by
  by_contra hnone
  exact h (report_halted_of_ne_raise s fun e he => hnone ⟨e, he⟩)

/-- Settles O11: an outcome touches the port, and `halted` only where it is InvalidCode, which only FDEC raises. -/
theorem commandsChangeOnlyPortAndHalt : Obligations.CommandsChangeOnlyPortAndHalt := by
  intro i s
  cases hs : s.halted with
  | true => exact ⟨_, exec_of_halted hs, rfl, fun hne => absurd hs hne⟩
  | false =>
    refine ⟨_, exec_of_not_halted hs, report_frame _ s, fun hne => ?_⟩
    rw [← hs] at hne
    obtain ⟨e, he⟩ := raise_of_report_halted_ne hne
    rw [he]
    exact ⟨rfl, rfl, raises_only_fdec he⟩

/-! ## The outcome of a word -/

/-- The outcome of a presented word, `Halted` and `BadOp` included (60_exceptions.md R242). -/
def wordOutcome (w : Word) (s : State) : CmdOutcome :=
  if s.halted then .refuse .halted
  else
    match decode w with
    | .error _ => .refuse .badOp
    | .ok i => cmdOutcome s i

theorem wordOutcome_of_halted {w : Word} {s : State} (hs : s.halted = true) : wordOutcome w s = .refuse .halted :=
  if_pos hs

theorem wordOutcome_of_error {w : Word} {s : State} {e : DecodeError} (hs : s.halted = false)
    (hd : decode w = .error e) : wordOutcome w s = .refuse .badOp := by
  simp only [wordOutcome, hs, hd, Bool.false_eq_true, if_false]

theorem wordOutcome_of_ok {w : Word} {s : State} {i : Instr} (hs : s.halted = false) (hd : decode w = .ok i) :
    wordOutcome w s = cmdOutcome s i := by
  simp only [wordOutcome, hs, hd, Bool.false_eq_true, if_false]

theorem runWord_eq_report (w : Word) (s : State) : runWord w s = .next (report (wordOutcome w s) s) := by
  obtain ⟨hs, hr⟩ | ⟨hs, ⟨e, hd⟩, hr⟩ | ⟨hs, i, hd, hr⟩ := runWord_cases w s
  · rw [hr, wordOutcome_of_halted hs, report]
  · rw [hr, wordOutcome_of_error hs hd, report]
  · rw [hr, wordOutcome_of_ok hs hd]

theorem wordOutcome_congr (w : Word) {s s' : State} (hcfg : s.cfg = s'.cfg) (hid : s.slaveId = s'.slaveId)
    (hresp : s.resp = s'.resp) (hhalt : s.halted = s'.halted) : wordOutcome w s = wordOutcome w s' := by
  simp only [wordOutcome, hhalt, cmdOutcome_congr _ hcfg hid hresp]

/-- A step on a presented word reports the word's outcome. -/
theorem step_present_word (w : Word) (resp : List Byte) (s : State) :
    step (present w resp s)
      = .next { report (wordOutcome w { s with resp := resp }) { s with resp := resp } with resp := [] } := by
  rw [step_command (present_inputs s w resp), runWord_eq_report]
  rfl

/-- Blocks that agree on configuration, SLAVE_ID and `halted` answer a presented word alike. -/
theorem step_present_congr (w : Word) (resp : List Byte) {s s' : State} (hcfg : s.cfg = s'.cfg)
    (hid : s.slaveId = s'.slaveId) (hhalt : s.halted = s'.halted) :
    ∃ u u', step (present w resp s) = .next u ∧ step (present w resp s') = .next u'
      ∧ u.port = u'.port ∧ u.halted = u'.halted := by
  have hsame : wordOutcome w { s with resp := resp } = wordOutcome w { s' with resp := resp } :=
    wordOutcome_congr w hcfg hid rfl hhalt
  refine ⟨_, _, step_present_word w resp s, step_present_word w resp s', ?_, ?_⟩
  · rw [hsame]
    exact report_port_eq _ _ _
  · rw [hsame]
    exact report_halted_congr _ hhalt

/-- Settles O13: a refusal leaves configuration, SLAVE_ID and `halted`, on which alone the next answer depends. -/
theorem refusalLeavesBlockUsable : Obligations.RefusalLeavesBlockUsable := by
  intro s t w w' resp resp' _ hstep _ hne
  rw [step_present_word] at hstep
  cases hstep
  refine step_present_congr w' resp' (report_cfg _ _) (report_slaveId _ _)
    (report_halted_of_ne_raise _ fun e he => hne ?_)
  rw [he]
  rfl

/-! ## Which causes an outcome can have -/

/-- The code reported is 0 or that of a cause that applies. -/
theorem FirstCause.applies {code : BitVec 4} {l : List (Prop × BitVec 4)} (h : FirstCause l code) :
    code = 0 ∨ ∃ p, (p, code) ∈ l ∧ p := by
  induction l with
  | nil => exact .inl h
  | cons head rest ih =>
    obtain ⟨hp, rfl⟩ | ⟨-, h⟩ := h
    · exact .inr ⟨_, List.mem_cons_self, hp⟩
    · exact (ih h).imp_right fun ⟨p, hmem, hp⟩ => ⟨p, List.mem_cons_of_mem _ hmem, hp⟩

/-- A running block refuses no command with `Halted`. -/
theorem cmdOutcome_ne_halted (i : Instr) (s : State) : cmdOutcome s i ≠ .refuse .halted := by
  intro h
  have hfirst := cmdOutcome_first i s
  rw [h] at hfirst
  obtain hzero | ⟨p, hmem, -⟩ := hfirst.applies
  · exact absurd hzero (by decide)
  · simp [operandCauses, CmdOutcome.status, Reason.status] at hmem

/-- A command that raises InvalidCode has its cause, a raw code without an enumerator (60_exceptions.md R231). -/
theorem invalidCodeCause_of_raise {i : Instr} {s : State} {e : InvalidCode} (h : cmdOutcome s i = .raise e) :
    invalidCodeCause s.cfg i := by
  have hfirst := cmdOutcome_first i s
  rw [h] at hfirst
  obtain hzero | ⟨p, hmem, hp⟩ := hfirst.applies
  · simp [CmdOutcome.status] at hzero
  · obtain rfl : p = invalidCodeCause s.cfg i := by simpa [operandCauses, CmdOutcome.status] using hmem
    exact hp

/-! ## Total tables -/

/-- Under total tables no raw code is without an enumerator. -/
theorem not_invalidCodeCause {cfg : Config} (h : cfg.decTotal = true) (i : Instr) : ¬invalidCodeCause cfg i := by
  cases i with
  | fdec f b =>
    rintro ⟨ft, -, hnone⟩
    have hraw : ((b >>> ft.shift) &&& 3).toNat < 4 :=
      Nat.lt_succ_of_le (BitVec.toNat_and _ _ ▸ Nat.and_le_right)
    have hsome := Config.lookup_total h ft hraw
    rw [hnone] at hsome
    cases hsome
  | _ => exact id

theorem wordOutcome_ne_raise {s : State} (h : s.cfg.decTotal = true) (w : Word) (e : InvalidCode) :
    wordOutcome w s ≠ .raise e := by
  intro hraise
  unfold wordOutcome at hraise
  split_ifs at hraise
  split at hraise
  · cases hraise
  · exact not_invalidCodeCause h _ (invalidCodeCause_of_raise hraise)

/-- What a step does: nothing, a reset, or to report the outcome of a word; in `u` the input has been taken. -/
theorem step_reports {s t : State} (h : step s = .next t) :
    t = s ∨ (∃ sa0 u, u.cfg = s.cfg ∧ t = resetBlock sa0 u)
    ∨ ∃ w u, u.cfg = s.cfg ∧ u.slaveId = s.slaveId ∧ u.halted = s.halted
        ∧ t = { report (wordOutcome w u) u with resp := [] } := by
  obtain ⟨-, rfl⟩ | ⟨sa0, rest, -, rfl⟩ | ⟨w, l, rest, -, u, hu, rfl⟩ := step_cases h
  · exact .inl rfl
  · exact .inr (.inl ⟨sa0, { s with inputs := rest }, rfl, rfl⟩)
  · rw [runWord_eq_report] at hu
    cases hu
    exact .inr (.inr ⟨w, { s with inputs := rest, resp := l }, rfl, rfl, rfl, rfl⟩)

/-- A running block whose tables are total. -/
structure RunsTotal (s : State) : Prop where
  total : s.cfg.decTotal = true
  running : s.halted = false

theorem step_keeps_runsTotal (s : State) (h : RunsTotal s) : ∃ u, step s = .next u ∧ RunsTotal u := by
  obtain ⟨u, hu⟩ := step_next s
  refine ⟨u, hu, step_cfg hu ▸ h.total, ?_⟩
  obtain rfl | ⟨sa0, v, -, rfl⟩ | ⟨w, v, hcfg, -, hhalt, rfl⟩ := step_reports hu
  · exact h.running
  · rfl
  · exact (report_halted_of_ne_raise v (wordOutcome_ne_raise (hcfg ▸ h.total) w)).trans (hhalt.trans h.running)

/-- Settles O47: only InvalidCode halts the block, its cause is a raw code that the table does not map, and no step
changes the tables. -/
theorem totalTablesNeverHalt : Obligations.TotalTablesNeverHalt := by
  refine ⟨standard_decTotal, fun n s htotal hs => ?_⟩
  obtain ⟨t, ht, hruns⟩ := run_keeps step_keeps_runsTotal n s ⟨htotal, hs⟩
  exact ⟨t, ht, hruns.running⟩

/-! ## The invariant -/

/-- The reset value of the result port is legal (log 5). -/
theorem legalPort_idle (cfg : Config) (id : Addr) : LegalPort cfg id .idle := by
  simp [LegalPort, ResultPort.idle]

/-- Settles O44: the default configuration is well-formed, and nothing stands on the port. -/
theorem invariantHoldsAtReset : Obligations.InvariantHoldsAtReset where
  cfg_wf := standard_wf
  slave := .inl rfl
  port := legalPort_idle _ _
  halt := by decide

/-! A framed-bus frame is legal by the bits of its header, an addressed-bus frame by those of its sub-address. -/

section Legal

variable {cfg : Config} {id a : Addr} {rest : List Byte}

theorem legalExchange_duplex {rw ms : BitVec 1} (ha : Named cfg a.toNat) (hwf : cfg.wf = true) (hrest : rest ≠ [])
    (hread : ms = 1 → rw = cfg.rwRead) (hsingle : ms = 0 → rest.length = 1) :
    LegalExchange cfg id (duplex (headerByte rw ms a :: rest)) := by
  have hlt := ha.lt_header hwf
  refine ⟨rfl, rfl, hrest, ?_, ?_, ?_⟩
  · rwa [headerByte_addr rw ms hlt]
  · rwa [headerByte_ms rw ms hlt, headerByte_rw]
  · rwa [headerByte_ms rw ms hlt]

/-- A two-byte frame is a single access, whichever way bit 7 stands. -/
theorem legalExchange_twoBytes (ha : Named cfg a.toNat) (hwf : cfg.wf = true) (rw : BitVec 1) (b : Byte) :
    LegalExchange cfg id (duplex [headerByte rw msSingle a, b]) :=
  legalExchange_duplex ha hwf (List.cons_ne_nil _ _) (fun hmulti => absurd hmulti (by decide)) fun _ => rfl

theorem legalExchange_frs {s : State} (hwf : s.cfg.wf = true) (ha : Named s.cfg a.toNat) (t : Bus) :
    LegalExchange s.cfg s.slaveId (frsExchange s a t) := by
  cases t with
  | framed => exact legalExchange_twoBytes ha hwf _ _
  | addressed => exact ⟨rfl, by rwa [subAddress_addr], .inr ⟨rfl, le_rfl, fun _ => rfl⟩⟩

theorem legalExchange_frb {s : State} {n : Byte} (hwf : s.cfg.wf = true) (hn : 1 ≤ n.toNat)
    (hb : BurstNamed s.cfg a n.toNat) (t : Bus) : LegalExchange s.cfg s.slaveId (frbExchange s a n t) := by
  have ha := hb.start hn
  cases t with
  | framed =>
    have hfill : List.replicate n.toNat s.cfg.fill ≠ [] := fun hnil =>
      Nat.ne_zero_of_lt hn (List.replicate_eq_nil_iff _ |>.1 hnil)
    exact legalExchange_duplex ha hwf hfill (fun _ => rfl) fun hsingle => absurd hsingle (by decide)
  | addressed =>
    refine ⟨rfl, by rwa [subAddressBurst_addr], .inr ⟨rfl, hn, fun hclear => ?_⟩⟩
    rw [subAddressBurst_marker] at hclear
    exact absurd hclear (by decide)

theorem legalExchange_fwr {s : State} {v : Byte} (hwf : s.cfg.wf = true) (ha : Named s.cfg a.toNat) (t : Bus) :
    LegalExchange s.cfg s.slaveId (fwrExchange s a v t) := by
  cases t with
  | framed => exact legalExchange_twoBytes ha hwf _ _
  | addressed => exact ⟨rfl, by rwa [subAddress_addr], .inl ⟨rfl, rfl, subAddress_marker a⟩⟩

/-- Every descriptor that a command answers is legal. -/
theorem Frames.legal {s : State} {i : Instr} {x : Exchange} (h : Frames s i x) (hwf : s.cfg.wf = true) :
    LegalExchange s.cfg s.slaveId x := by
  cases h with
  | single t a ha => exact legalExchange_frs hwf ha t
  | burst t a n hn hb => exact legalExchange_frb hwf hn hb t
  | write t a v ha => exact legalExchange_fwr hwf ha t

end Legal

/-- What the invariant asks of an outcome: a descriptor is legal, only a running block ends ok, and `Halted` is the
refusal of a halted block and of no other. -/
structure LegalOutcome (s : State) (o : CmdOutcome) : Prop where
  exchange : ∀ x, o = .ok (.xd x) → LegalExchange s.cfg s.slaveId x
  running : ∀ r, o = .ok r → s.halted = false
  refusal : ∀ r, o = .refuse r → (s.halted = true ↔ r = .halted)

theorem wordOutcome_legal {s : State} (hwf : s.cfg.wf = true) (w : Word) : LegalOutcome s (wordOutcome w s) := by
  cases hs : s.halted with
  | true =>
    rw [wordOutcome_of_halted hs]
    exact ⟨nofun, nofun, by rintro r ⟨⟩; simp [hs]⟩
  | false =>
    cases hd : decode w with
    | error e =>
      rw [wordOutcome_of_error hs hd]
      exact ⟨nofun, nofun, by rintro r ⟨⟩; simp [hs]⟩
    | ok i =>
      rw [wordOutcome_of_ok hs hd]
      refine ⟨fun x hx => (frames_of_xd hx).legal hwf, fun _ _ => hs, fun r hr => ?_⟩
      have hne : r ≠ .halted := fun hhalted => cmdOutcome_ne_halted i s (hhalted ▸ hr)
      simp [hs, hne]

/-- The port of a result is legal where the result's descriptor is. -/
theorem legalPort_result {cfg : Config} {id : Addr} (r : Result) (h : ∀ x, r = .xd x → LegalExchange cfg id x) :
    LegalPort cfg id r.port := by
  cases r with
  | xd x => simpa [LegalPort, Result.port, statusOk] using h x rfl
  | res b => simp [LegalPort, Result.port, statusOk]
  | payload l => simp [LegalPort, Result.port, statusOk]

theorem legalPort_refusal (cfg : Config) (id : Addr) (r : Reason) :
    LegalPort cfg id ⟨r.status, none, none, none, none⟩ := by
  cases r <;> simp [LegalPort, Reason.status]

theorem legalPort_invalid (cfg : Config) (id : Addr) (e : InvalidCode) :
    LegalPort cfg id ⟨8, none, none, none, some e⟩ := by
  simp [LegalPort]

theorem Reason.status_eq_nine {r : Reason} : r.status = 9 ↔ r = .halted := by
  cases r <;> decide

/-- Reporting a legal outcome keeps the invariant. -/
theorem inv_report {s : State} {o : CmdOutcome} (hwf : s.cfg.wf = true)
    (hslave : s.slaveId = s.cfg.slaveId0 ∨ s.slaveId = s.cfg.slaveId1) (h : LegalOutcome s o) : Inv (report o s) := by
  cases o with
  | ok r =>
    refine ⟨hwf, hslave, legalPort_result r fun x hx => h.exchange x (hx ▸ rfl), ?_⟩
    simp [report, h.running r rfl, statusOk]
  | refuse r =>
    refine ⟨hwf, hslave, legalPort_refusal _ _ r, ?_⟩
    exact (h.refusal r rfl).trans ⟨fun hr => .inr (Reason.status_eq_nine.2 hr),
      fun hr => Reason.status_eq_nine.1 (hr.resolve_left r.status_ne_invalidCode)⟩
  | raise e =>
    refine ⟨hwf, hslave, legalPort_invalid _ _ e, ?_⟩
    simp [report]

/-- The response port and the inputs to come play no part in the invariant. -/
theorem Inv.of_eq {s t : State} (h : Inv s) (hcfg : t.cfg = s.cfg) (hid : t.slaveId = s.slaveId)
    (hport : t.port = s.port) (hhalt : t.halted = s.halted) : Inv t :=
  ⟨hcfg ▸ h.cfg_wf, hcfg ▸ hid ▸ h.slave, hcfg ▸ hid ▸ hport ▸ h.port, hhalt ▸ hport ▸ h.halt⟩

theorem inv_resetBlock {s : State} (hwf : s.cfg.wf = true) (sa0 : Bool) : Inv (resetBlock sa0 s) where
  cfg_wf := hwf
  slave := by cases sa0 <;> simp [Config.strapId]
  port := legalPort_idle _ _
  halt := by simp [ResultPort.idle]

/-- Settles O45: an idle step changes nothing, a reset re-establishes the invariant, and a word reports a legal
outcome. -/
theorem stepKeepsInvariant : Obligations.StepKeepsInvariant := by
  intro s t hinv hstep
  obtain rfl | ⟨sa0, u, hcfg, rfl⟩ | ⟨w, u, hcfg, hid, -, rfl⟩ := step_reports hstep
  · exact hinv
  · exact inv_resetBlock (hcfg ▸ hinv.cfg_wf) sa0
  · have hwf : u.cfg.wf = true := hcfg ▸ hinv.cfg_wf
    have hslave : u.slaveId = u.cfg.slaveId0 ∨ u.slaveId = u.cfg.slaveId1 := by
      rw [hid, hcfg]
      exact hinv.slave
    exact (inv_report hwf hslave (wordOutcome_legal hwf w)).of_eq rfl rfl rfl rfl

end Sys2Proof.Machine
end

section
/-! PROOFS. The host's primitives against any far side (20_memory.md R59, R72, R73; 43_host_sequences.md R191, R210;
60_exceptions.md R246): how long an answer is, where a failed read stops, and the status decode. -/

namespace Sys2Proof.Machine

/-! ## The world after a command and after an exchange -/

/-- The world after the block has ended a command ok. -/
def World.showing (w : World) (r : Result) : World :=
  { w with block := { w.block with resp := [], port := r.port } }

/-- The world after one exchange. -/
def World.exchanged (w : World) (x : Exchange) (far : FarSide) : World :=
  { w with far := far, wire := w.wire ++ [x] }

/-- Issuing a command that ends ok. -/
theorem issue_showing {i : Instr} {resp : List Byte} {w : World} (hs : w.block.halted = false) {r : Result}
    (ho : cmdOutcome { w.block with resp := resp } i = .ok r) : issue i resp w = .done r.port (w.showing r) :=
  issue_ok (decode_encode i) hs ho

/-! ## Exchanges -/

/-- An answer of bytes of another length is no answer of a transport (log 22). -/
theorem xfer_wrongLength {x : Exchange} {w : World} {rx : List Byte} {rest : List Answer}
    (hfar : w.far = .oracle (.bytes rx :: rest)) (hlen : rx.length ≠ x.answerLength) :
    xfer x w = .stopped .wrongLength (w.exchanged x (.oracle rest)) := by
  rw [xfer, hfar]
  exact if_neg hlen

/-- The transport's error stops the exchange, unchanged (60_exceptions.md R246). -/
theorem xfer_error {x : Exchange} {w : World} {e : TransportError} {rest : List Answer}
    (hfar : w.far = .oracle (.error e :: rest)) :
    xfer x w = .stopped (.transportError e) (w.exchanged x (.oracle rest)) := by
  rw [xfer, hfar]
  rfl

/-! ## Reads that end -/

/-- A read on either bus: a framing command, its exchange, and DRSP on what was received (20_memory.md R72, R73). -/
def readWith (t : Bus) (i : Instr) (w : World) : HostResult (List Byte) :=
  (access i w).andThen fun rx w => payloadOf t rx w

theorem memReadSingle_eq (t : Bus) (a : Addr) (w : World) : memReadSingle t a w = readWith t (.frs t a) w := rfl

theorem memReadBurst_eq (t : Bus) (a : Addr) (n : Byte) (w : World) :
    memReadBurst t a n w = readWith t (.frb t a n) w := rfl

/-- Everything a read that ends can be: one exchange, whose response list carries the payload. -/
theorem readWith_done {t : Bus} {i : Instr} {w w' : World} {l : List Byte} (h : readWith t i w = .done l w') :
    w.block.halted = false ∧ ∃ x far dummy, cmdOutcome { w.block with resp := [] } i = .ok (.xd x)
      ∧ (responseOf dummy l t).length = x.answerLength ∧ w' = (w.exchanged x far).showing (.payload l) := by
  obtain ⟨rx, w₁, haccess, hpayload⟩ := andThen_eq_done h
  obtain ⟨hs, x, far, hx, hlen, rfl⟩ := access_done (decode_encode i) haccess
  obtain ⟨-, hok, rfl⟩ := payloadOf_done (decode_encode _) hpayload
  obtain ⟨dummy, hresp⟩ := cmdOutcome_drsp_eq_ok hok
  obtain rfl : rx = responseOf dummy l t := hresp
  exact ⟨hs, x, far, dummy, hx, hlen, rfl⟩

/-- The answer to a single read carries one byte, on either bus. -/
theorem length_responseOf_frs {s : State} {a : Addr} {t : Bus} {dummy : Byte} {l : List Byte} :
    (responseOf dummy l t).length = (frsExchange s a t).answerLength ↔ l.length = 1 := by
  cases t with
  | framed => exact Nat.succ_inj
  | addressed => exact Iff.rfl

/-- The answer to a burst read carries as many bytes as the burst asks for, on either bus. -/
theorem length_responseOf_frb {s : State} {a : Addr} {n : Byte} {t : Bus} {dummy : Byte} {l : List Byte} :
    (responseOf dummy l t).length = (frbExchange s a n t).answerLength ↔ l.length = n.toNat := by
  cases t with
  | framed => simp [responseOf, frbExchange, duplex, Exchange.answerLength]
  | addressed => exact Iff.rfl

/-- A single read that ends has one byte, and was one exchange on a running block. -/
theorem memReadSingle_done {t : Bus} {a : Addr} {w w' : World} {l : List Byte} (h : memReadSingle t a w = .done l w') :
    w.block.halted = false ∧ l.length = 1 ∧ ∃ x far, w' = (w.exchanged x far).showing (.payload l) := by
  rw [memReadSingle_eq] at h
  obtain ⟨hs, x, far, dummy, hok, hlen, rfl⟩ := readWith_done h
  obtain ⟨-, rfl⟩ := cmdOutcome_frs_eq_ok hok
  exact ⟨hs, length_responseOf_frs.1 hlen, _, far, rfl⟩

/-- A burst read that ends has all its bytes, and was one exchange on a running block. -/
theorem memReadBurst_done {t : Bus} {a : Addr} {n : Byte} {w w' : World} {l : List Byte}
    (h : memReadBurst t a n w = .done l w') :
    w.block.halted = false ∧ l.length = n.toNat ∧ ∃ x far, w' = (w.exchanged x far).showing (.payload l) := by
  rw [memReadBurst_eq] at h
  obtain ⟨hs, x, far, dummy, hok, hlen, rfl⟩ := readWith_done h
  obtain ⟨-, -, rfl⟩ := cmdOutcome_frb_eq_ok hok
  exact ⟨hs, length_responseOf_frb.1 hlen, _, far, rfl⟩

/-- Settles O60: XFER checks the length, and DRSP takes off no more than the one dummy byte that the framed bus adds. -/
theorem exchangesReturnAllTheirBytes : Obligations.ExchangesReturnAllTheirBytes := by
  refine ⟨fun x w w' rx h => ?_, fun t a w w' l h => ?_, fun t a n w w' l h => ?_, fun x w rx rest hfar hlen => ?_⟩
  · obtain ⟨hlen, far, -, rfl⟩ := xfer_done h
    exact ⟨hlen, rfl⟩
  · obtain ⟨-, hlen, x, far, rfl⟩ := memReadSingle_done h
    exact ⟨hlen, List.length_append⟩
  · obtain ⟨-, hlen, x, far, rfl⟩ := memReadBurst_done h
    exact ⟨hlen, List.length_append⟩
  · exact xfer_wrongLength hfar hlen

/-! ## A read that fails -/

/-- A single read whose exchange the transport fails stops there; the exchange was the one that FRS answers. -/
theorem readByte_transportError {t : Bus} {a : Addr} {w : World} {e : TransportError} {rest : List Answer}
    (hs : w.block.halted = false) (ha : Named w.block.cfg a.toNat) (hfar : w.far = .oracle (.error e :: rest)) :
    readByte t a w
      = .stopped (.transportError e)
          ((w.showing (.xd (frsExchange w.block a t))).exchanged (frsExchange w.block a t) (.oracle rest)) := by
  have herror : access (.frs t a) w = .stopped (.transportError e) _ :=
    (access_ok (decode_encode _) hs (cmdOutcome_frs_of_named ha t [])).trans (xfer_error hfar)
  rw [readByte, memReadSingle, herror, andThen_stopped, andThen_stopped]
  rfl

/-- A setter whose read stops has stopped. -/
theorem setField_stopped {t : Bus} {ft : FieldType} {c : Byte} {h : Addr} {w w' : World} {why : HostStop}
    (hreg : w.block.cfg.hostReg ft = some h) (hread : readByte t h w = .stopped why w') :
    setField t ft c w = .stopped why w' := by
  rw [setField, hreg, need_some, andThen_done, hread, andThen_stopped]

/-- Settles O52: the setter begins with the single read of its host register, and nothing follows a stop. -/
theorem failedReadStopsSetter : Obligations.FailedReadStopsSetter := by
  intro t ft c w e rest h ⟨hs, hwf⟩ hfar hreg
  obtain ⟨_, hreg', hnamed⟩ := Config.hostReg_named hwf ft
  obtain rfl := Option.some_inj.1 (hreg.symm.trans hreg')
  have hanswer : AnswersXd (.frs t h) { w.block with resp := [] } (frsExchange w.block h t) :=
    answersXd_of_ok (s := { w.block with resp := [] }) hs (cmdOutcome_frs_of_named hnamed t [])
  exact ⟨_, _, setField_stopped hreg (readByte_transportError hs hnamed hfar), rfl, rfl, hanswer, hs⟩

/-! ## The status decode -/

/-- A one-bit field is its bit (43_host_sequences.md R210). -/
theorem fieldExtracted_one (k : Nat) (b : Byte) : fieldExtracted 1 k b = if b.getLsbD k then 1 else 0 := by
  refine BitVec.eq_of_getLsbD_eq fun j hj => ?_
  rw [getLsbD_fieldExtracted]
  cases j with
  | zero => cases b.getLsbD k <;> simp
  | succ j => cases b.getLsbD k <;> simp [BitVec.getLsbD_one]

theorem byteBit_eq (k : Fin 8) (b : Byte) : byteBit k b = b.getLsbD k := by
  rw [byteBit, fieldExtracted_one]
  cases b.getLsbD k <;> rfl

theorem decodeStatus_eq (l : StatusLayout) (s : Byte) :
    decodeStatus l s
      = ⟨s.getLsbD 7, s.getLsbD l.zOverrun, s.getLsbD l.yOverrun, s.getLsbD l.xOverrun, s.getLsbD l.newData,
         s.getLsbD l.zNew, s.getLsbD l.yNew, s.getLsbD 0⟩ := by
  simp only [decodeStatus, byteBit_eq]
  rfl

/-- The byte of a single read that ends; the block is as before but for its ports. -/
theorem readByte_done {t : Bus} {a : Addr} {b : Byte} {w w₁ : World} (h : readByte t a w = .done b w₁) :
    w₁.block.halted = false ∧ w₁.block.cfg = w.block.cfg := by
  obtain ⟨l, w₂, hread, hneed⟩ := andThen_eq_done h
  obtain ⟨-, rfl⟩ := need_eq_done hneed
  obtain ⟨hs, -, x, far, rfl⟩ := memReadSingle_done hread
  exact ⟨hs, rfl⟩

/-- Settles O58: a one-bit field is its bit; the eight commands run on the block that the read leaves, and the last of
them is the one for bit 0. -/
theorem statusFlagsAreBits : Obligations.StatusFlagsAreBits := by
  refine ⟨decodeStatus_eq, fun k s st hs => ?_, fun l s w hs => ⟨_, readFlags_ok decode_encode l s hs, rfl, rfl, hs⟩,
    fun t a s w w₁ hreg hread => ?_⟩
  · exact (answersRes_of_ok hs (cmdOutcome_bit st k s)).of_eq (fieldExtracted_one k s)
  · obtain ⟨hs, hcfg⟩ := readByte_done hread
    refine ⟨w₁.showing (.res (fieldExtracted 1 0 s)), ?_, rfl, rfl, congrArg resPort (fieldExtracted_one 0 s)⟩
    rw [readStatus, hreg, need_some, andThen_done, hread, andThen_done, readFlags_ok decode_encode _ s hs, hcfg]
    rfl

end Sys2Proof.Machine
end

section
/-! PROOFS. The host's primitives and its two measurement reads on the storage premise (20_memory.md R72 to R74,
43_host_sequences.md R195, R196; 10_state.md R46, D22). -/

namespace Sys2Proof.Machine

/-! ## The device's answer to the block's frames -/

/-- The device after it has stored a byte. -/
def StorageDevice.storing (d : StorageDevice) (a : Addr) (v : Byte) : StorageDevice :=
  { d with file := d.file.write a v }

section Device

variable {d : StorageDevice} {s : State} {a : Addr} {n v header : Byte} {rest l : List Byte} {rw ms : BitVec 1}

/-- 41_framer_framed.md R156: a read frame is answered by the dummy byte and the registers from the address on. -/
theorem transfer_read (ha : a.toNat < 64) (hrw : rw = d.readBit) (hms : ms = 1 ∨ rest.length = 1)
    (hl : d.file.shiftOut a.toNat rest.length = some l) :
    d.transfer (headerByte rw ms a :: rest) = some (d.dummy :: l, d) := by
  have hform : (ms == 1 || rest.length == 1) = true := by simpa using hms
  subst hrw
  simp only [StorageDevice.transfer, headerByte_rw, headerByte_ms _ ms ha, headerByte_addr _ ms ha, hform, hl,
    beq_self_eq_true, if_true, Option.map_some]

/-- 41_framer_framed.md R156: a write frame stores its second byte. -/
theorem transfer_write (ha : a.toNat < 64) (hrw : rw ≠ d.readBit) :
    d.transfer [headerByte rw msSingle a, v] = some ([d.dummy, d.dummy], d.storing a v) := by
  have haddr : ((headerByte rw msSingle a).extractLsb' 0 6).setWidth 7 = a := by
    apply BitVec.eq_of_toNat_eq
    rw [BitVec.toNat_setWidth, headerByte_addr rw msSingle ha, Nat.mod_eq_of_lt a.isLt]
  simp only [StorageDevice.transfer, headerByte_rw, headerByte_ms rw msSingle ha, haddr, beq_false_of_ne hrw]
  rfl

theorem exchange_frs (ha : a.toNat < 64) (hread : d.readBit = s.cfg.rwRead)
    (hl : d.file.shiftOut a.toNat 1 = some l) (t : Bus) :
    d.exchange (frsExchange s a t) = some (responseOf d.dummy l t, d) := by
  cases t with
  | framed => exact transfer_read (rest := [s.cfg.fill]) ha hread.symm (.inr rfl) hl
  | addressed =>
    simp only [StorageDevice.exchange, frsExchange, writeRead, StorageDevice.writeThenRead, subAddress_marker,
      subAddress_addr, hl]
    rfl

theorem exchange_frb (ha : a.toNat < 64) (hread : d.readBit = s.cfg.rwRead) (hn : 1 ≤ n.toNat)
    (hl : d.file.shiftOut a.toNat n.toNat = some l) (t : Bus) :
    d.exchange (frbExchange s a n t) = some (responseOf d.dummy l t, d) := by
  cases t with
  | framed => exact transfer_read ha hread.symm (.inl rfl) (by rwa [List.length_replicate])
  | addressed =>
    simp only [StorageDevice.exchange, frbExchange, writeRead, StorageDevice.writeThenRead, subAddressBurst_marker,
      subAddressBurst_addr, hl, hn, decide_true]
    rfl

/-- A write is answered at the length of its exchange, on either bus. -/
theorem exchange_fwr (ha : a.toNat < 64) (hread : d.readBit = s.cfg.rwRead) (t : Bus) :
    ∃ rx, d.exchange (fwrExchange s a v t) = some (rx, d.storing a v)
      ∧ rx.length = (fwrExchange s a v t).answerLength := by
  cases t with
  | framed => exact ⟨_, transfer_write ha (hread ▸ rwWrite_ne s.cfg), rfl⟩
  | addressed =>
    refine ⟨[], ?_, rfl⟩
    simp only [StorageDevice.exchange, fwrExchange, writeRead, StorageDevice.writeThenRead, subAddress_marker,
      subAddress_addr]
    rfl

end Device

/-! ## A block wired to the device -/

/-- A running block with a well-formed configuration, wired to the storage device of its polarity: `Ready` and
`StoresIn`, with the configuration by name. -/
structure Attached (cfg : Config) (d : StorageDevice) (w : World) : Prop where
  wf : cfg.wf = true
  polarity : d.readBit = cfg.rwRead
  cfg_eq : w.block.cfg = cfg
  running : w.block.halted = false
  far_eq : w.far = .storage d

theorem attached_iff {d : StorageDevice} {w : World} : Attached w.block.cfg d w ↔ Ready w ∧ StoresIn w d :=
  ⟨fun h => ⟨⟨h.running, h.wf⟩, h.far_eq, h.polarity⟩,
    fun ⟨⟨hs, hwf⟩, hfar, hpol⟩ => ⟨hwf, hpol, rfl, hs, hfar⟩⟩

section Wired

variable {cfg : Config} {d : StorageDevice} {w : World} {a : Addr} {n v : Byte} {l : List Byte} {t : Bus}

theorem Attached.showing (h : Attached cfg d w) (r : Result) : Attached cfg d (w.showing r) :=
  ⟨h.wf, h.polarity, h.cfg_eq, h.running, h.far_eq⟩

theorem Attached.exchanged (h : Attached cfg d w) (x : Exchange) : Attached cfg d (w.exchanged x (.storage d)) :=
  ⟨h.wf, h.polarity, h.cfg_eq, h.running, rfl⟩

theorem Attached.stored (h : Attached cfg d w) (x : Exchange) (a : Addr) (v : Byte) :
    Attached cfg (d.storing a v) (w.exchanged x (.storage (d.storing a v))) :=
  ⟨h.wf, h.polarity, h.cfg_eq, h.running, rfl⟩

/-- The polarity, as the frames of the block have it. -/
theorem Attached.readBit_eq (h : Attached cfg d w) : d.readBit = w.block.cfg.rwRead :=
  h.polarity.trans (congrArg Config.rwRead h.cfg_eq.symm)

/-- What the device answers is what the bus answers. -/
theorem Attached.far_exchange (h : Attached cfg d w) {x : Exchange} {rx : List Byte} {d' : StorageDevice}
    (hx : d.exchange x = some (rx, d')) : w.far.exchange x = some (.bytes rx, .storage d') := by
  rw [h.far_eq, FarSide.exchange, hx]
  rfl

/-! ## Reads and writes -/

/-- A read whose exchange the device answers with the payload `l`. -/
theorem readWith_ok {i : Instr} {x : Exchange} (h : Attached cfg d w)
    (ho : cmdOutcome { w.block with resp := [] } i = .ok (.xd x))
    (hx : d.exchange x = some (responseOf d.dummy l t, d)) (hlen : (responseOf d.dummy l t).length = x.answerLength) :
    readWith t i w = .done l ((w.exchanged x (.storage d)).showing (.payload l)) := by
  rw [readWith, access_answered (decode_encode i) h.running ho (h.far_exchange hx) hlen, andThen_done]
  exact payloadOf_ok (decode_encode _) h.running (cmdOutcome_drsp rfl)

/-- 20_memory.md R72. -/
theorem memReadSingle_ok (h : Attached cfg d w) (ha : Named cfg a.toNat) (t : Bus) :
    ∃ l, IsSlice d.file a 1 l ∧ memReadSingle t a w
      = .done l ((w.exchanged (frsExchange w.block a t) (.storage d)).showing (.payload l)) := by
  obtain ⟨l, hl, hslice⟩ := d.file.shiftOut_spec 1 a.toNat a.isLt
  have hx := exchange_frs (ha.lt_header h.wf) h.readBit_eq hl t
  have hframe := cmdOutcome_frs_of_named (h.cfg_eq ▸ ha) t []
  exact ⟨l, hslice, readWith_ok h hframe hx (length_responseOf_frs.2 hslice.1)⟩

/-- 20_memory.md R73. -/
theorem memReadBurst_ok (h : Attached cfg d w) (hn : 1 ≤ n.toNat) (hb : BurstNamed cfg a n.toNat) (t : Bus) :
    ∃ l, IsSlice d.file a n.toNat l ∧ memReadBurst t a n w
      = .done l ((w.exchanged (frbExchange w.block a n t) (.storage d)).showing (.payload l)) := by
  obtain ⟨l, hl, hslice⟩ := d.file.shiftOut_spec n.toNat a.toNat (burst_below h.wf hb)
  have hx := exchange_frb ((hb.start hn).lt_header h.wf) h.readBit_eq hn hl t
  have hframe := cmdOutcome_frb_of_burstNamed hn (h.cfg_eq ▸ hb) t []
  exact ⟨l, hslice, readWith_ok h hframe hx (length_responseOf_frb.2 hslice.1)⟩

/-- 20_memory.md R74. -/
theorem memWrite_ok (h : Attached cfg d w) (ha : Named cfg a.toNat) (v : Byte) (t : Bus) :
    memWrite t a v w
      = .done () ((w.showing (.xd (fwrExchange w.block a v t))).exchanged (fwrExchange w.block a v t)
          (.storage (d.storing a v))) := by
  obtain ⟨rx, hx, hlen⟩ := exchange_fwr (v := v) (ha.lt_header h.wf) h.readBit_eq t
  have hframe := cmdOutcome_fwr_of_named (v := v) (h.cfg_eq ▸ ha) t []
  rw [memWrite, access_answered (decode_encode _) h.running hframe (h.far_exchange hx) hlen]
  rfl

end Wired

/-- Settles O48: the device answers the single read with the addressed register, behind the dummy byte on the framed
bus. -/
theorem singleReadReturnsRegister : Obligations.SingleReadReturnsRegister := by
  intro t a w d hready hstores ha
  obtain ⟨l, hslice, hread⟩ := memReadSingle_ok (attached_iff.2 ⟨hready, hstores⟩) ha t
  exact ⟨l, _, hread, hslice, hstores.1.symm, List.length_append, hready.1⟩

/-- Settles O49: the device steps its pointer up through named registers, which stay below 128. -/
theorem burstReadReturnsRegisters : Obligations.BurstReadReturnsRegisters := by
  intro t a n w d hready hstores hn hb
  obtain ⟨l, hslice, hread⟩ := memReadBurst_ok (attached_iff.2 ⟨hready, hstores⟩) hn hb t
  exact ⟨l, _, hread, hslice, hstores.1.symm, List.length_append, hready.1⟩

/-- Settles O50: the device reads the block's header as a write, since its bit 7 is not the read bit. -/
theorem writeStoresRegister : Obligations.WriteStoresRegister := by
  intro t a v w d hready hstores ha
  have hwrite := memWrite_ok (attached_iff.2 ⟨hready, hstores⟩) ha v t
  exact ⟨_, d.storing a v, hwrite, rfl, d.file.read_write_self a v, fun b hb => d.file.read_write_ne v hb,
    List.length_append, hready.1⟩

/-! ## The measurement reads -/

/-- The measurement of six bytes, each axis the high byte before the low byte. -/
theorem measurement_of_getElem? {l : List Byte} {xl xh yl yh zl zh : Byte} (hlen : l.length = 6) (h0 : l[0]? = some xl)
    (h1 : l[1]? = some xh) (h2 : l[2]? = some yl) (h3 : l[3]? = some yh) (h4 : l[4]? = some zl) (h5 : l[5]? = some zh) :
    measurement l = some ⟨(xh ++ xl).toInt, (yh ++ yl).toInt, (zh ++ zl).toInt⟩ := by
  match l, hlen with
  | [_, _, _, _, _, _], _ =>
    cases h0; cases h1; cases h2; cases h3; cases h4; cases h5
    simp only [measurement, axis_eq_append]

theorem named_of_map_addrOf {cfg : Config} {r : RegName} {n : Nat} (h : (cfg.addrOf r).map (·.toNat) = some n) :
    Named cfg n := by
  obtain ⟨a, ha, rfl⟩ := Option.map_eq_some_iff.1 h
  exact Config.addrOf_named ha

/-- 10_state.md R27: the six axis registers are named and consecutive. -/
theorem burstNamed_axes {cfg : Config} {a : Addr} (hwf : cfg.wf = true) (ha : cfg.addrOf .outXL = some a) :
    BurstNamed cfg a 6 := by
  simp only [Config.wf, Config.mapWf, Bool.and_eq_true] at hwf
  obtain ⟨⟨⟨⟨_, haxes⟩, _⟩, _⟩, _⟩ := hwf
  simp only [ha, List.zipIdx_cons, List.zipIdx_nil, List.all_cons, List.all_nil, Bool.and_true, Bool.and_eq_true,
    beq_iff_eq] at haxes
  obtain ⟨h1, h2, h3, h4, h5⟩ := haxes
  intro k hk
  match k, hk with
  | 0, _ => exact Config.addrOf_named ha
  | 1, _ => exact named_of_map_addrOf h1
  | 2, _ => exact named_of_map_addrOf h2
  | 3, _ => exact named_of_map_addrOf h3
  | 4, _ => exact named_of_map_addrOf h4
  | 5, _ => exact named_of_map_addrOf h5

/-- `read_gyro` is its burst read and the reading of the payload. -/
theorem readGyro_done {t : Bus} {a : Addr} {l : List Byte} {m : Measurement} {w w' : World}
    (ha : w.block.cfg.addrOf .outXL = some a) (hread : memReadBurst t a 6 w = .done l w')
    (hm : measurement l = some m) : readGyro t w = .done m w' := by
  rw [readGyro, ha, need_some, andThen_done, hread, andThen_done, hm, need_some]

/-- Settles O54: the burst of 6 from the first axis register is named, and its bytes are the axis registers in order. -/
theorem readGyroReturnsAxes : Obligations.ReadGyroReturnsAxes := by
  intro t w d a xl xh yl yh zl zh hready hstores ha h0 h1 h2 h3 h4 h5
  obtain ⟨l, ⟨hlen, hget⟩, hread⟩ :=
    memReadBurst_ok (n := 6) (attached_iff.2 ⟨hready, hstores⟩) (by decide) (burstNamed_axes hready.2 ha) t
  have hm := measurement_of_getElem? hlen ((hget 0 (by decide)).trans h0) ((hget 1 (by decide)).trans h1)
    ((hget 2 (by decide)).trans h2) ((hget 3 (by decide)).trans h3) ((hget 4 (by decide)).trans h4)
    ((hget 5 (by decide)).trans h5)
  exact ⟨_, readGyro_done ha hread hm, hstores.1.symm⟩

theorem axisOff_eq {cfg : Config} {a x : Addr} (ha : cfg.addrOf .outTemp = some a) (hx : cfg.addrOf .outXL = some x)
    (hlt : a.toNat < x.toNat) : axisOff cfg = some (x.toNat - a.toNat) := by
  simp only [axisOff, ha, hx, hlt, if_true]

/-- `read_all` is its burst read and the reading of the payload. -/
theorem readAll_done {t : Bus} {a : Addr} {off : Nat} {b : Byte} {l : List Byte} {m : Measurement} {w w' : World}
    (ha : w.block.cfg.addrOf .outTemp = some a) (hoff : axisOff w.block.cfg = some off)
    (hread : memReadBurst t a (BitVec.ofNat 8 (off + 6)) w = .done l w') (hb : l[0]? = some b)
    (hm : measurement (l.drop off) = some m) : readAll t w = .done (b.toInt, m) w' := by
  rw [readAll, ha, need_some, andThen_done, hoff, need_some, andThen_done, hread, andThen_done, hb, need_some,
    andThen_done, hm, need_some, andThen_done, rawTemperature]

/-- Settles O55: the burst from the temperature register ends with the last axis register, so the payload past AXIS_OFF
is the six axis bytes. -/
theorem readAllReturnsTemperatureAndAxes : Obligations.ReadAllReturnsTemperatureAndAxes := by
  intro t w d a x b xl xh yl yh zl zh hready hstores ha hx hlt hb htemp h0 h1 h2 h3 h4 h5
  have hcount : (BitVec.ofNat 8 (x.toNat - a.toNat + 6)).toNat = x.toNat - a.toNat + 6 := by
    have := x.isLt
    rw [BitVec.toNat_ofNat]
    omega
  obtain ⟨l, ⟨hlen, hget⟩, hread⟩ := memReadBurst_ok (n := BitVec.ofNat 8 (x.toNat - a.toNat + 6))
    (attached_iff.2 ⟨hready, hstores⟩) (by omega) (by rwa [hcount]) t
  rw [hcount] at hlen hget
  have hfirst : l[0]? = some b := (hget 0 (by omega)).trans htemp
  have haxis {k : Nat} {c : Byte} (hk : k < 6) (hc : d.file.read (x.toNat + k) = some c) :
      (l.drop (x.toNat - a.toNat))[k]? = some c := by
    rw [List.getElem?_drop, hget _ (by omega), ← hc]
    congr 1
    omega
  have hm := measurement_of_getElem? (by rw [List.length_drop, hlen]; omega) (haxis (by decide) h0)
    (haxis (by decide) h1) (haxis (by decide) h2) (haxis (by decide) h3) (haxis (by decide) h4) (haxis (by decide) h5)
  exact ⟨_, readAll_done ha (axisOff_eq ha hx hlt) hread hfirst hm, hstores.1.symm, List.length_append⟩

end Sys2Proof.Machine
end

section
/-! PROOFS. The getters, the setters and `construct` on the storage premise (43_host_sequences.md R192, R197, R198;
20_memory.md R70). -/

namespace Sys2Proof.Machine

/-! ## Getters -/

/-- The host register of the field holds the raw code. -/
def HoldsRaw (cfg : Config) (file : DeviceFile) (ft : FieldType) (raw : Byte) : Prop :=
  ∃ h b, cfg.hostReg ft = some h ∧ file.read h.toNat = some b ∧ fieldExtracted ft.width ft.shift b = raw

section Sequences

variable {cfg : Config} {d : StorageDevice} {w : World} {ft : FieldType} {t : Bus}

/-- Every field of a device has some raw code. -/
theorem exists_holdsRaw (hwf : cfg.wf = true) (file : DeviceFile) (ft : FieldType) :
    ∃ raw, HoldsRaw cfg file ft raw := by
  obtain ⟨h, hreg, -⟩ := Config.hostReg_named hwf ft
  obtain ⟨b, hb⟩ := file.read_isSome h.isLt
  exact ⟨_, h, b, hreg, hb, rfl⟩

/-- The one byte of a single read is the addressed register. -/
theorem readByte_ok (hw : Attached cfg d w) {h : Addr} {b : Byte} (hnamed : Named cfg h.toNat)
    (hb : d.file.read h.toNat = some b) (t : Bus) : ∃ w', readByte t h w = .done b w' ∧ Attached cfg d w' := by
  obtain ⟨l, ⟨-, hget⟩, hread⟩ := memReadSingle_ok hw hnamed t
  have hfirst : l[0]? = some b := (hget 0 Nat.one_pos).trans hb
  refine ⟨_, ?_, (hw.exchanged (frsExchange w.block h t)).showing (.payload l)⟩
  rw [readByte, hread, andThen_done, hfirst, need_some]

/-- A write stores its byte, and the block is ready for what follows. -/
theorem memWrite_stores (hw : Attached cfg d w) {h : Addr} (hnamed : Named cfg h.toNat) (v : Byte) (t : Bus) :
    ∃ w', memWrite t h v w = .done () w' ∧ Attached cfg (d.storing h v) w' :=
  ⟨_, memWrite_ok hw hnamed v t, (hw.showing _).stored _ h v⟩

/-- `get_<field>` reads the host register and issues FDEC on it. -/
theorem getField_eq (hw : Attached cfg d w) {raw : Byte} (hraw : HoldsRaw cfg d.file ft raw) (t : Bus) :
    ∃ b w₁, fieldExtracted ft.width ft.shift b = raw ∧ Attached cfg d w₁
      ∧ getField t ft w = (issue (.fdec ft.code b) [] w₁).andThen fun port w => need port.res .noMeaning w := by
  obtain ⟨h, b, hreg, hb, hraw⟩ := hraw
  obtain ⟨h', hreg', hnamed⟩ := Config.hostReg_named hw.wf ft
  obtain rfl := Option.some_inj.1 (hreg.symm.trans hreg')
  obtain ⟨w₁, hread, hw₁⟩ := readByte_ok hw hnamed hb t
  refine ⟨b, w₁, hraw, hw₁, ?_⟩
  rw [getField, hw.cfg_eq, hreg, need_some, andThen_done, hread, andThen_done]

/-- A mapped raw code is read as its canonical code. -/
theorem getField_ok (hw : Attached cfg d w) {raw c : Byte} (hraw : HoldsRaw cfg d.file ft raw)
    (hc : (cfg.decTable ft).lookup raw = some c) (t : Bus) :
    ∃ w', getField t ft w = .done c w' ∧ Attached cfg d w' := by
  obtain ⟨b, w₁, rfl, hw₁, hget⟩ := getField_eq hw hraw t
  have hdec : cmdOutcome { w₁.block with resp := [] } (.fdec ft.code b) = .ok (.res c) :=
    fdecOutcome_of_lookup_some (hw₁.cfg_eq.symm ▸ hc)
  refine ⟨w₁.showing (.res c), ?_, hw₁.showing _⟩
  rw [hget, issue_showing hw₁.running hdec]
  rfl

/-- A getter that ends has read a mapped raw code. -/
theorem getField_done (hw : Attached cfg d w) {v : Byte} {w' : World} (h : getField t ft w = .done v w') :
    Attached cfg d w' ∧ ∃ raw, HoldsRaw cfg d.file ft raw ∧ (cfg.decTable ft).lookup raw = some v := by
  obtain ⟨raw, hraw⟩ := exists_holdsRaw hw.wf d.file ft
  cases hlookup : (cfg.decTable ft).lookup raw with
  | some c =>
    obtain ⟨w₂, hget, hw₂⟩ := getField_ok hw hraw hlookup t
    cases h.symm.trans hget
    exact ⟨hw₂, raw, hraw, hlookup⟩
  | none =>
    exfalso
    obtain ⟨b, w₁, rfl, hw₁, hget⟩ := getField_eq hw hraw t
    obtain ⟨port, w₂, hissue, -⟩ := andThen_eq_done (hget.symm.trans h)
    obtain ⟨-, r, hok, -⟩ := issue_done (decode_encode _) hissue
    have hraise : cmdOutcome { w₁.block with resp := [] } (.fdec ft.code b) = .raise _ :=
      fdecOutcome_of_lookup_none (hw₁.cfg_eq.symm ▸ hlookup)
    cases hok.symm.trans hraise

/-! ## Setters -/

/-- 10_state.md R25, R27: two fields share a host register only where their masks are disjoint. -/
theorem fieldMask_disjoint_of_hostReg (hwf : cfg.wf = true) {other : FieldType} (hne : ft ≠ other) {h : Addr}
    (hreg : cfg.hostReg ft = some h) (hreg' : cfg.hostReg other = some h) :
    fieldMask ft.width ft.shift &&& fieldMask other.width other.shift = 0 := by
  have hne_fs (hctrl : cfg.addrOf .ctrlReg1 = some h) (hfs : some cfg.fsReg = some h) : False :=
    Config.fsReg_ne hwf hctrl (Option.some_inj.1 hfs).symm
  match ft, other with
  | .rate, .rate | .bw, .bw | .fs, .fs => exact absurd rfl hne
  | .rate, .bw | .bw, .rate => decide
  | .rate, .fs | .bw, .fs => exact (hne_fs hreg hreg').elim
  | .fs, .rate | .fs, .bw => exact (hne_fs hreg' hreg).elim

/-- 20_memory.md R70: an insertion into the host register of one field leaves the raw code of every other. -/
theorem HoldsRaw.of_insert (hwf : cfg.wf = true) {other : FieldType} (hne : ft ≠ other) {h : Addr} {c cur raw : Byte}
    {file : DeviceFile} (hreg : cfg.hostReg ft = some h) (hcur : file.read h.toNat = some cur)
    (hraw : HoldsRaw cfg file other raw) :
    HoldsRaw cfg (file.write h (fieldInserted ft.width ft.shift c cur)) other raw := by
  obtain ⟨h', b, hreg', hb, hraw⟩ := hraw
  by_cases heq : h' = h
  · subst heq
    obtain rfl := Option.some_inj.1 (hcur.symm.trans hb)
    refine ⟨h', _, hreg', file.read_write_self _ _, ?_⟩
    rw [fieldExtracted_fieldInserted_of_disjoint (fieldMask_disjoint_of_hostReg hwf hne hreg hreg'), hraw]
  · exact ⟨h', b, hreg', (file.read_write_ne _ fun hnat => heq (BitVec.eq_of_toNat_eq hnat)).trans hb, hraw⟩

/-- `set_<field>` to a canonical code leaves the field with that raw code and every other field with its own. -/
theorem setField_ok (hw : Attached cfg d w) {c : Byte} (hc : Canonical cfg ft c) (t : Bus) :
    ∃ w' d', setField t ft c w = .done () w' ∧ Attached cfg d' w' ∧ HoldsRaw cfg d'.file ft c
      ∧ ∀ other raw, ft ≠ other → HoldsRaw cfg d.file other raw → HoldsRaw cfg d'.file other raw := by
  obtain ⟨h, hreg, hnamed⟩ := Config.hostReg_named hw.wf ft
  obtain ⟨cur, hcur⟩ := d.file.read_isSome h.isLt
  obtain ⟨w₁, hread, hw₁⟩ := readByte_ok hw hnamed hcur t
  have hins : cmdOutcome { w₁.block with resp := [] } (.fins ft.code c cur)
      = .ok (.res (fieldInserted ft.width ft.shift c cur)) :=
    finsOutcome_of_canonical (hw₁.cfg_eq.symm ▸ hc) cur
  obtain ⟨w₂, hwrite, hw₂⟩ := memWrite_stores (hw₁.showing (.res (fieldInserted ft.width ft.shift c cur))) hnamed
    (fieldInserted ft.width ft.shift c cur) t
  refine ⟨w₂, _, ?_, hw₂, ⟨h, _, hreg, d.file.read_write_self h _, fieldExtracted_fieldInserted_of_canonical hc cur⟩,
    fun other raw hne hraw => hraw.of_insert hw.wf hne hreg hcur⟩
  rw [setField, hw.cfg_eq, hreg, need_some, andThen_done, hread, andThen_done, issue_showing hw₁.running hins,
    andThen_done]
  exact hwrite

end Sequences

/-- Settles O51: the getter that ended saw a mapped raw code of the other field, which the setter keeps; the set field
has the canonical code itself as its raw code. -/
theorem setterKeepsOtherFields : Obligations.SetterKeepsOtherFields := by
  intro t ft other c v w w₁ d hready hstores hne hc hget
  obtain ⟨hw₁, raw, hraw, hlookup⟩ := getField_done (attached_iff.2 ⟨hready, hstores⟩) hget
  obtain ⟨w₂, d', hset, hw₂, hset_raw, hkept⟩ := setField_ok hw₁ hc t
  obtain ⟨w₃, hother, hw₃⟩ := getField_ok hw₂ (hkept other raw hne hraw) hlookup t
  obtain ⟨w₄, hself, -⟩ := getField_ok hw₃ hset_raw (hc.lookup_self hready.2) t
  exact ⟨w₂, w₃, w₄, hset, hother, hself⟩

/-! ## construct -/

/-- SLAVE_ID after `construct` has taken its identity (log 16). -/
def slaveIdAfter (t : Bus) (identity : Option Addr) (w : World) : Addr :=
  match t, identity with
  | .addressed, some id => id
  | _, _ => w.block.slaveId

/-- Taking an identity that the strap can select, or none, changes the block alone, and keeps its configuration. -/
theorem takeIdentity_ok {t : Bus} {identity : Option Addr} {w : World}
    (h : ∀ id, t = .addressed → identity = some id → id = w.block.cfg.slaveId0 ∨ id = w.block.cfg.slaveId1) :
    ∃ b, takeIdentity t identity w = .done () { w with block := b } ∧ b.slaveId = slaveIdAfter t identity w
      ∧ b.cfg = w.block.cfg ∧ (w.block.halted = false → b.halted = false) := by
  match t, identity with
  | .addressed, some id =>
    obtain ⟨sa0, hsa0⟩ := Option.isSome_iff_exists.1 (Config.strapFor_isSome.2 (h id rfl rfl))
    exact adoptIdentity_ok hsa0
  | .addressed, none => exact ⟨w.block, rfl, rfl, rfl, id⟩
  | .framed, _ => exact ⟨w.block, rfl, rfl, rfl, id⟩

/-- An identity that no strap level selects stops `construct` before it has done anything (log 16). -/
theorem construct_noSuchIdentity {id : Addr} {w : World} (h : w.block.cfg.strapFor id = none) :
    construct .addressed (some id) w = .stopped .noSuchIdentity w := by
  rw [construct, takeIdentity, adoptIdentity, h, need_none, andThen_stopped, andThen_stopped]

/-- `construct` is the identity, then the boot write. -/
theorem construct_done {t : Bus} {identity : Option Addr} {a : Addr} {w w₁ w₂ : World}
    (htake : takeIdentity t identity w = .done () w₁) (ha : w₁.block.cfg.addrOf .ctrlReg1 = some a)
    (hwrite : memWrite t a ctrl1Init w₁ = .done () w₂) : construct t identity w = .done () w₂ := by
  rw [construct, htake, andThen_done, ha, need_some, andThen_done, hwrite]

/-- Settles O53: taking the identity leaves the configuration and the device, and the one write that follows stores the
boot byte. -/
theorem constructOverwritesFirstControl : Obligations.ConstructOverwritesFirstControl := by
  refine ⟨fun t identity w d a hready hstores ha hid => ?_, fun id w h0 h1 => construct_noSuchIdentity ?_⟩
  · obtain ⟨b, htake, hslave, hcfg, hs⟩ := takeIdentity_ok hid
    have hw : Attached w.block.cfg d { w with block := b } :=
      ⟨hready.2, hstores.2, hcfg, hs hready.1, hstores.1⟩
    have hwrite := memWrite_ok hw (Config.addrOf_named ha) ctrl1Init t
    exact ⟨_, d.storing a ctrl1Init, ctrl1Init, construct_done htake (hcfg.symm ▸ ha) hwrite, rfl,
      d.file.read_write_self a _, rfl, by decide, fun r hr => d.file.read_write_ne _ hr, List.length_append, hslave⟩
  · rw [← Option.not_isSome_iff_eq_none, Config.strapFor_isSome]
    exact not_or_intro h0 h1

end Sys2Proof.Machine
end
